-- ==== Sys2Proof/Word.lean ====
section
/-! DEFINITION. The two bit-vector types of the machine (00_scope.md R7, R8, R13). -/

namespace Sys2Proof

/-- A register value, a memory word, an instruction word: 32 bits, unsigned (00_scope.md R8). -/
abbrev Word := BitVec 32

/-- One item of the input or output stream, or of a program image (10_state.md R35, R36). -/
abbrev Byte := BitVec 8

end Sys2Proof
end

