-- ==== Sys2Proof/Syntax.lean ====
section
/-! DEFINITION. The abstract syntax of the instruction set: the eight registers (10_state.md R20) and
one constructor per row of spec/opcode_table.json (30_encoding.md R70). -/

namespace Sys2Proof

/-- The eight general registers; they have no names but their numbers (10_state.md R20). -/
inductive Reg where
  | r0 | r1 | r2 | r3 | r4 | r5 | r6 | r7
  deriving DecidableEq, Repr

/-- The instructions, in the order of the opcode map. Operands stand in field order a, b, c, less the
fields the instruction does not use (30_encoding.md R70, R71, R76). -/
inductive Instr where
  /-- opcode 0: if rc is not 0 then ra <- rb (41_alu.md R90) -/
  | cmov (a b c : Reg)
  /-- opcode 1: ra <- word rc of segment rb (42_segment_access.md R100) -/
  | sload (a b c : Reg)
  /-- opcode 2: word rb of segment ra <- rc (42_segment_access.md R101) -/
  | sstore (a b c : Reg)
  /-- opcode 3: ra <- rb + rc (41_alu.md R91) -/
  | add (a b c : Reg)
  /-- opcode 4: ra <- rb * rc (41_alu.md R92) -/
  | mul (a b c : Reg)
  /-- opcode 5: ra <- rb / rc, unsigned (41_alu.md R93) -/
  | div (a b c : Reg)
  /-- opcode 6: ra <- NOT (rb AND rc) (41_alu.md R94) -/
  | nand (a b c : Reg)
  /-- opcode 7: stop (45_control.md R118) -/
  | halt
  /-- opcode 8: rb <- id of a new segment of rc words (43_segment_management.md R106) -/
  | map (b c : Reg)
  /-- opcode 9: free segment rc (43_segment_management.md R108) -/
  | unmap (c : Reg)
  /-- opcode 10: emit byte rc (44_io.md R111) -/
  | out (c : Reg)
  /-- opcode 11: rc <- input byte, or all ones at end of stream (44_io.md R113) -/
  | inp (c : Reg)
  /-- opcode 12: if rb is not 0, segment 0 <- copy of segment rb; pc <- rc (45_control.md R119) -/
  | loadprog (b c : Reg)
  /-- opcode 13: rA <- imm (41_alu.md R96). The immediate is the number an assembly line names;
  WellFormed says which numbers fit its 25-bit field (30_encoding.md R77). -/
  | loadimm (A : Reg) (imm : Nat)
  /-- opcode 14, illegal: raises InvalidOpcode; its other 28 bits are irrelevant (40_cycle.md R85) -/
  | illegal14
  /-- opcode 15, illegal: raises InvalidOpcode; its other 28 bits are irrelevant (40_cycle.md R85) -/
  | illegal15
  deriving DecidableEq, Repr

end Sys2Proof
end

