-- ==== Sys2Proof/WellFormed.lean ====
section
/-! DEFINITION. Which terms of the syntax are instructions. Registers are closed data, so the one check
is the assembler's: an immediate fits its 25-bit field (30_encoding.md R67, R77). -/

namespace Sys2Proof

/-- One more than the largest immediate, 0x1FFFFFF (30_encoding.md R67; `IMM_BITS` of 00_scope.md R6). -/
def immLimit : Nat := 2 ^ 25

/-- The well-formed instructions: LOADIMM is "refused if `imm ≥ 2^25`" (30_encoding.md R77). -/
def Instr.wf : Instr → Bool
  | .cmov _ _ _ => true
  | .sload _ _ _ => true
  | .sstore _ _ _ => true
  | .add _ _ _ => true
  | .mul _ _ _ => true
  | .div _ _ _ => true
  | .nand _ _ _ => true
  | .halt => true
  | .map _ _ => true
  | .unmap _ => true
  | .out _ => true
  | .inp _ => true
  | .loadprog _ _ => true
  | .loadimm _ imm => decide (imm < immLimit)
  | .illegal14 => true
  | .illegal15 => true

end Sys2Proof
end

