-- ==== Sys2Proof/Decode.lean ====
section
/-! DEFINITION. The decoder and the encoder, from the two layouts and the opcode map of
30_encoding.md R65 to R74 and R77. The decoder is total: every word is one of the 14 instructions or
one of the two illegal rows (R74). -/

namespace Sys2Proof

/-- `w[hi:lo]`: the unsigned integer made of bits hi down to lo of w (00_scope.md R7). -/
def field (w : Word) (hi lo : Nat) : Nat := w.toNat / 2 ^ lo % 2 ^ (hi - lo + 1)

/-- The number of a register (10_state.md R20). -/
def Reg.index : Reg → Nat
  | .r0 => 0 | .r1 => 1 | .r2 => 2 | .r3 => 3 | .r4 => 4 | .r5 => 5 | .r6 => 6 | .r7 => 7

/-- The register a 3-bit field names: every value of the field is one (10_state.md R20). -/
def Reg.ofIndex : Nat → Reg
  | 0 => .r0 | 1 => .r1 | 2 => .r2 | 3 => .r3 | 4 => .r4 | 5 => .r5 | 6 => .r6 | _ => .r7

/-- The opcode field, bits 31:28 (30_encoding.md R68). -/
def opField (w : Word) : Nat := field w 31 28

/-- Register index a of the three-register layout, bits 8:6 (30_encoding.md R66). -/
def regA (w : Word) : Reg := Reg.ofIndex (field w 8 6)

/-- Register index b of the three-register layout, bits 5:3 (30_encoding.md R66). -/
def regB (w : Word) : Reg := Reg.ofIndex (field w 5 3)

/-- Register index c of the three-register layout, bits 2:0 (30_encoding.md R66). -/
def regC (w : Word) : Reg := Reg.ofIndex (field w 2 0)

/-- Destination register A of the immediate layout, bits 27:25 (30_encoding.md R67). -/
def regImm (w : Word) : Reg := Reg.ofIndex (field w 27 25)

/-- The immediate, bits 24:0 (30_encoding.md R67). -/
def immField (w : Word) : Nat := field w 24 0

/-- The decoder: the opcode field selects the layout and the instruction, nothing else does
(30_encoding.md R68, R70). Bits 27:9 of a three-register word and the fields an instruction does not
use are not read (R71, R72); opcodes 14 and 15 are illegal whatever their other bits (R73). -/
def decode (w : Word) : Instr :=
  match opField w with
  | 0 => .cmov (regA w) (regB w) (regC w)
  | 1 => .sload (regA w) (regB w) (regC w)
  | 2 => .sstore (regA w) (regB w) (regC w)
  | 3 => .add (regA w) (regB w) (regC w)
  | 4 => .mul (regA w) (regB w) (regC w)
  | 5 => .div (regA w) (regB w) (regC w)
  | 6 => .nand (regA w) (regB w) (regC w)
  | 7 => .halt
  | 8 => .map (regB w) (regC w)
  | 9 => .unmap (regC w)
  | 10 => .out (regC w)
  | 11 => .inp (regC w)
  | 12 => .loadprog (regB w) (regC w)
  | 13 => .loadimm (regImm w) (immField w)
  | 14 => .illegal14
  | _ => .illegal15

/-- The opcode of an instruction (30_encoding.md R70). -/
def Instr.opcode : Instr → Nat
  | .cmov _ _ _ => 0
  | .sload _ _ _ => 1
  | .sstore _ _ _ => 2
  | .add _ _ _ => 3
  | .mul _ _ _ => 4
  | .div _ _ _ => 5
  | .nand _ _ _ => 6
  | .halt => 7
  | .map _ _ => 8
  | .unmap _ => 9
  | .out _ => 10
  | .inp _ => 11
  | .loadprog _ _ => 12
  | .loadimm _ _ => 13
  | .illegal14 => 14
  | .illegal15 => 15

/-- `op·2^28 + a·64 + b·8 + c`: a three-register word with bits 27:9 zero (30_encoding.md R66, R77). -/
def threeRegisterWord (op a b c : Nat) : Word := BitVec.ofNat 32 (op * 2 ^ 28 + a * 64 + b * 8 + c)

/-- `13·2^28 + A·2^25 + imm` (30_encoding.md R67); the field takes the low 25 bits of the number. -/
def immediateWord (A imm : Nat) : Word := BitVec.ofNat 32 (13 * 2 ^ 28 + A * 2 ^ 25 + imm % immLimit)

/-- The canonical encoding: unused fields and bits 27:9 zero (30_encoding.md R71, R77). -/
def encode (i : Instr) : Word :=
  match i with
  | .cmov a b c => threeRegisterWord i.opcode a.index b.index c.index
  | .sload a b c => threeRegisterWord i.opcode a.index b.index c.index
  | .sstore a b c => threeRegisterWord i.opcode a.index b.index c.index
  | .add a b c => threeRegisterWord i.opcode a.index b.index c.index
  | .mul a b c => threeRegisterWord i.opcode a.index b.index c.index
  | .div a b c => threeRegisterWord i.opcode a.index b.index c.index
  | .nand a b c => threeRegisterWord i.opcode a.index b.index c.index
  | .halt => threeRegisterWord i.opcode 0 0 0
  | .map b c => threeRegisterWord i.opcode 0 b.index c.index
  | .unmap c => threeRegisterWord i.opcode 0 0 c.index
  | .out c => threeRegisterWord i.opcode 0 0 c.index
  | .inp c => threeRegisterWord i.opcode 0 0 c.index
  | .loadprog b c => threeRegisterWord i.opcode 0 b.index c.index
  | .loadimm A imm => immediateWord A.index imm
  | .illegal14 => threeRegisterWord i.opcode 0 0 0
  | .illegal15 => threeRegisterWord i.opcode 0 0 0

/-- The assembler function on one line: the canonical word, refused when the immediate does not fit
(30_encoding.md R77). The illegal rows have no assembly syntax (R76), so they are refused too. -/
def assemble (i : Instr) : Option Word :=
  match i with
  | .illegal14 => none
  | .illegal15 => none
  | i => if i.wf then some (encode i) else none

/-- The instruction the decoder reads from an opcode-table word of `nbits` bits. A row is one 32-bit
word (30_encoding.md R65), so bits above `nbits` are 0 and more than 32 bits are no instruction. -/
def decodeTableWord (nbits w : Nat) : Option Instr :=
  if nbits ≤ 32 then some (decode (BitVec.ofNat 32 (w % 2 ^ nbits))) else none

end Sys2Proof
end

