-- ==== Sys2Proof/Config.lean ====
section
/-! DEFINITION. What an implementation fixes: the one parameter of the machine that is neither a value
the spec states nor an argument of construction (00_scope.md R6, `MEM_WORDS_MAX`). -/

namespace Sys2Proof

/-- The fixed parameters of one um CORE. -/
structure Config where
  /-- `MEM_WORDS_MAX`: total words of live segments the hardware can hold; `none` is the spec's
  default, unbounded (20_memory.md R56; notes/assumptions/2.md). -/
  memWordsMax : Option Nat
  deriving DecidableEq, Repr

/-- The spec's default parameters (00_scope.md R6). -/
def Config.default : Config := { memWordsMax := none }

end Sys2Proof
end

