-- ==== Sys2Proof/Machine/State.lean ====
section
/-! DEFINITION. Everything the spec gives the machine to hold (10_state.md R20 to R39), as plain data,
the reasons a step can have no next state, and the state at construction with nothing loaded. -/

namespace Sys2Proof.Machine

/-- The kinds of fault a step can raise (60_exceptions.md R124). Every one is fatal (R123). -/
inductive FaultKind where
  /-- the opcode field is 14 or 15 (40_cycle.md R85) -/
  | invalidOpcode
  /-- segment id not live, or offset out of bounds (60_exceptions.md R126) -/
  | memoryFault
  /-- DIV with a zero divisor (41_alu.md R93) -/
  | divisionByZero
  /-- OUT of a value above 255 (44_io.md R111) -/
  | invalidOutputValue
  /-- no id left, or `MEM_WORDS_MAX` would be passed (20_memory.md R45, R50) -/
  | allocationFailure
  deriving DecidableEq, Repr

/-- The run status (10_state.md R24). -/
inductive Status where
  | running
  | halted
  | faulted (k : FaultKind)
  deriving DecidableEq, Repr

/-- A segment: `len` words of 32 bits at offsets 0 to `len - 1` (10_state.md R26). Only the offsets
whose word differs from the word an unlisted offset holds are listed, in rising order
(notes/assumptions/4.md). -/
structure Segment where
  len : Nat
  words : List (Nat × Word)
  deriving DecidableEq, Repr

/-- The segment table: the bound ids, in rising order, each with its segment (10_state.md R27). It is
the whole memory of the machine; instruction space is its segment 0 (R37). -/
abbrev Memory := List (Nat × Segment)

/-- The register file (10_state.md R20). -/
structure Regs where
  r0 : Word
  r1 : Word
  r2 : Word
  r3 : Word
  r4 : Word
  r5 : Word
  r6 : Word
  r7 : Word
  deriving DecidableEq, Repr

/-- The state of the um CORE (10_state.md R38), and the parameter fixed for a run. -/
structure State where
  /-- `x[0]` to `x[7]` (R20) -/
  regs : Regs
  /-- index into segment 0 of the next instruction to fetch (R22) -/
  pc : Word
  /-- run status (R24) -/
  status : Status
  /-- segment table `seg` (R27) -/
  seg : Memory
  /-- free-id pool, the head is the top of the stack (R29) -/
  pool : List Nat
  /-- next id to mint (R30) -/
  nextId : Nat
  /-- input bytes not yet consumed, `in` (R35) -/
  input : List Byte
  /-- bytes emitted so far, in order, `out` (R36) -/
  output : List Byte
  /-- the open parameter `MEM_WORDS_MAX`, which no step changes (00_scope.md R6;
  notes/assumptions/2.md) -/
  config : Config
  deriving DecidableEq, Repr

/-- Why the machine has no step. `raise K` is a next state whose status is `Faulted(K)`
(60_exceptions.md R128); these two are the answers of a state in which no step is enabled
(40_cycle.md R80; notes/assumptions/1.md). -/
inductive Fault where
  /-- Raised by `step` alone, in a state whose status is `Halted`: the run has ended normally
  (70_reset_and_hazards.md R147). Safe: the machine has no step there. -/
  | halted
  /-- Raised by `step` alone, in a state whose status is `Faulted(K)`: the run has ended by that fault
  (60_exceptions.md R128). Safe: the machine has no step there. -/
  | faulted (k : FaultKind)
  deriving DecidableEq, Repr

/-- Why the model gives an instruction no meaning. -/
inductive Refusal where
  /-- Raised by an arm of `exec` that has no meaning yet, by its mnemonic. Safe: the model stops. No
  arm of this model raises it. -/
  | notModelled (mnemonic : String)
  deriving DecidableEq, Repr

/-- The register file at construction (10_state.md R20: "all initialized to 0"). -/
def Regs.zero : Regs := ⟨0, 0, 0, 0, 0, 0, 0, 0⟩

/-- The state at construction (10_state.md R38) with the open parameters PROGRAM and INPUT empty and
MEM_WORDS_MAX at its default (notes/assumptions/3.md). `construct` takes any program and input. -/
def State.reset : State where
  regs := Regs.zero
  pc := 0
  status := .running
  seg := [(0, { len := 0, words := [] })]
  pool := []
  nextId := 1
  input := []
  output := []
  config := Config.default

end Sys2Proof.Machine
end

