-- ==== Sys2Proof/Machine/Flags.lean ====
section
/-! DEFINITION. The machine has no flags: no carry, overflow, zero or sign bit is recorded anywhere
(10_state.md R25, 41_alu.md R95 (c)). What stands here is what a machine with flags would take them
from: the narrowing of an exact result to 32 bits. -/

namespace Sys2Proof.Machine

/-- `v mod 2^32`: the low 32 bits of an exact result; what is lost is recorded nowhere
(00_scope.md R8, 41_alu.md R91, R92). -/
def narrow (v : Nat) : Word := BitVec.ofNat 32 v

end Sys2Proof.Machine
end

