-- ==== Sys2Proof/Machine/Operands.lean ====
section
/-! DEFINITION. The operands of an instruction: registers and the 25-bit immediate, the only operand
forms there are (30_encoding.md R69, 42_segment_access.md R102). -/

namespace Sys2Proof.Machine

/-- `x[i]` (00_scope.md R9). No register is hardwired (10_state.md R20). -/
def Regs.get (x : Regs) : Reg → Word
  | .r0 => x.r0 | .r1 => x.r1 | .r2 => x.r2 | .r3 => x.r3
  | .r4 => x.r4 | .r5 => x.r5 | .r6 => x.r6 | .r7 => x.r7

/-- `x[i] <- v` (00_scope.md R9). -/
def Regs.set (x : Regs) (i : Reg) (v : Word) : Regs :=
  match i with
  | .r0 => { x with r0 := v } | .r1 => { x with r1 := v }
  | .r2 => { x with r2 := v } | .r3 => { x with r3 := v }
  | .r4 => { x with r4 := v } | .r5 => { x with r5 := v }
  | .r6 => { x with r6 := v } | .r7 => { x with r7 := v }

/-- The value of a register operand. -/
def State.reg (s : State) (i : Reg) : Word := s.regs.get i

/-- Writing a destination register. -/
def State.setReg (s : State) (i : Reg) (v : Word) : State := { s with regs := s.regs.set i v }

/-- `zext_32` of the immediate (00_scope.md R11, 30_encoding.md R69). A number that does not fit the
25-bit field is no operand of an instruction; the field's low 25 bits are what the word would hold
(notes/assumptions/8.md). -/
def immediateValue (imm : Nat) : Word := BitVec.ofNat 32 (imm % immLimit)

/-- `zext_32` of an input byte (00_scope.md R11, 44_io.md R113). -/
def byteValue (b : Byte) : Word := BitVec.ofNat 32 b.toNat

/-- `EOS_VALUE`: what IN writes at end of stream (00_scope.md R6, 44_io.md R113). -/
def eosValue : Word := 0xFFFFFFFF#32

/-- `OUT_MAX`: the largest value OUT accepts (00_scope.md R6, 44_io.md R111). -/
def outMax : Nat := 255

end Sys2Proof.Machine
end

