-- ==== Sys2Proof/Machine/Ops.lean ====
section
/-! DEFINITION. The named operations of the machine: sorted tables, segments, the Segmented Memory
Manager's six run-time operations (20_memory.md R45 to R50), the two byte collaborators (10_state.md
R35, R36), fetch and advance (40_cycle.md R81, R82), and raising a fault (60_exceptions.md R128). -/

namespace Sys2Proof.Machine

/-! ### Tables: a list of keys and values with keys strictly rising -/

/-- The canonical form of a table: keys strictly rising. -/
abbrev Table.Rising {α : Type} (t : List (Nat × α)) : Prop := (t.map Prod.fst).Pairwise (· < ·)

/-- The value a key is bound to. -/
def Table.find {α : Type} : List (Nat × α) → Nat → Option α
  | [], _ => none
  | (k, v) :: t, i => if k = i then some v else Table.find t i

/-- Bind a key, in its place. -/
def Table.put {α : Type} : List (Nat × α) → Nat → α → List (Nat × α)
  | [], i, v => [(i, v)]
  | (k, w) :: t, i, v =>
    if i < k then (i, v) :: (k, w) :: t
    else if i = k then (i, v) :: t
    else (k, w) :: Table.put t i v

/-- Unbind a key. -/
def Table.erase {α : Type} (t : List (Nat × α)) (i : Nat) : List (Nat × α) :=
  t.filter (fun p => p.1 != i)

/-! ### Segments -/

/-- What an offset below the length that no cell lists holds: "all initialized to 0" (20_memory.md
R45). -/
def unlistedWord : Word := 0#32

/-- The canonical form of a segment: offsets strictly rising and below the length, no cell that holds
what an unlisted offset holds, and a length a 32-bit register can give (10_state.md R26). -/
abbrev Segment.wf (g : Segment) : Prop :=
  Table.Rising g.words ∧ (∀ p ∈ g.words, p.1 < g.len ∧ p.2 ≠ unlistedWord) ∧ g.len < 2 ^ 32

/-- The canonical form of memory: ids strictly rising, below 2^32 (10_state.md R27), each segment in
its canonical form. Equal memories are equal data. -/
abbrev Memory.wf (m : Memory) : Prop :=
  Table.Rising m ∧ ∀ p ∈ m, p.1 < 2 ^ 32 ∧ p.2.wf

/-- The word at an offset below the length. -/
def Segment.wordAt (g : Segment) (off : Nat) : Word := (Table.find g.words off).getD unlistedWord

/-- The segment with one word changed. -/
def Segment.store (g : Segment) (off : Nat) (v : Word) : Segment :=
  { g with words := if v = unlistedWord then Table.erase g.words off else Table.put g.words off v }

/-- The segment of `size` words, every word 0 (20_memory.md R45). -/
def Segment.zeros (size : Nat) : Segment := { len := size, words := [] }

/-! ### Looking at the segment table -/

/-- The segment an id is bound to (10_state.md R27). -/
def State.segment (s : State) (id : Nat) : Option Segment := Table.find s.seg id

/-- `Live(id)` (10_state.md R28). -/
def State.live (s : State) (id : Nat) : Bool := (s.segment id).isSome

/-- `words_live`: the sum of the lengths of all live segments (20_memory.md R45). -/
def wordsLive (m : Memory) : Nat := (m.map (fun p => p.2.len)).sum

/-- Whether a total of live words is at most `MEM_WORDS_MAX` (20_memory.md R45, R50). -/
def withinCapacity (c : Config) (total : Nat) : Bool :=
  match c.memWordsMax with
  | none => true
  | some most => decide (total ≤ most)

/-- One more than `MAX_SEGMENT_ID`: the value of `next_id` when every id has been minted
(10_state.md R30). -/
def idLimit : Nat := 2 ^ 32

/-! ### The manager's operations -/

/-- `Alloc(size)` (20_memory.md R45): the id bound and the state after. -/
def alloc (size : Nat) (s : State) : Except FaultKind (Nat × State) :=
  if s.pool = [] ∧ s.nextId = idLimit then .error .allocationFailure
  else if !withinCapacity s.config (wordsLive s.seg + size) then .error .allocationFailure
  else match s.pool with
    | id :: rest => .ok (id, { s with pool := rest, seg := Table.put s.seg id (Segment.zeros size) })
    | [] =>
      .ok (s.nextId, { s with nextId := s.nextId + 1,
                              seg := Table.put s.seg s.nextId (Segment.zeros size) })

/-- `Free(id)` (20_memory.md R46). -/
def free (id : Nat) (s : State) : Except FaultKind State :=
  if s.live id then .ok { s with seg := Table.erase s.seg id, pool := id :: s.pool }
  else .error .memoryFault

/-- `Len(id)` (20_memory.md R49). -/
def segLen (id : Nat) (s : State) : Except FaultKind Nat :=
  match s.segment id with
  | none => .error .memoryFault
  | some g => .ok g.len

/-- `MemRead((id, off), 1)` (20_memory.md R47). -/
def memRead (id off : Nat) (s : State) : Except FaultKind Word :=
  match s.segment id with
  | none => .error .memoryFault
  | some g => if g.len ≤ off then .error .memoryFault else .ok (g.wordAt off)

/-- `MemWrite((id, off), 1, v)` (20_memory.md R48). -/
def memWrite (id off : Nat) (v : Word) (s : State) : Except FaultKind State :=
  match s.segment id with
  | none => .error .memoryFault
  | some g =>
    if g.len ≤ off then .error .memoryFault
    else .ok { s with seg := Table.put s.seg id (g.store off v) }

/-- The length of segment 0, which is always live (10_state.md R31 (a)). -/
def lenZero (s : State) : Nat := ((s.segment 0).map Segment.len).getD 0

/-- `ReplaceZero(id)` (20_memory.md R50): liveness, then the no-op for 0, then capacity
(60_exceptions.md R129). The copy is a value, so nothing is shared with segment `id` afterwards. -/
def replaceZero (id : Nat) (s : State) : Except FaultKind State :=
  match s.segment id with
  | none => .error .memoryFault
  | some g =>
    if id = 0 then .ok s
    else if !withinCapacity s.config (wordsLive s.seg - lenZero s + g.len) then .error .allocationFailure
    else .ok { s with seg := Table.put s.seg 0 g }

/-! ### The byte collaborators -/

/-- `InByte()`: the next byte, or end of stream, which is sticky (10_state.md R35). -/
def inByte (s : State) : Option Byte × State :=
  match s.input with
  | [] => (none, s)
  | b :: rest => (some b, { s with input := rest })

/-- `OutByte(v)` (10_state.md R36). -/
def outByte (b : Byte) (s : State) : State := { s with output := s.output ++ [b] }

/-! ### Taking a fault -/

/-- The number of a fault kind: a label with no behaviour attached (60_exceptions.md R124). -/
def FaultKind.code : FaultKind → Nat
  | .invalidOpcode => 1
  | .memoryFault => 2
  | .divisionByZero => 3
  | .invalidOutputValue => 4
  | .allocationFailure => 5

/-- `raise K`: "`status <- Faulted(K)`; the step ends. Nothing is saved, no mode changes, no mask
changes, no stack is touched, and control goes nowhere" (60_exceptions.md R128). There is no return
from a fault (R131). -/
def raise (k : FaultKind) (s : State) : Host.Outcome State Fault Refusal :=
  .next { s with status := .faulted k }

/-- Go on with an operation's result, or raise its fault in the state before it (00_scope.md R12,
20_memory.md R52: "A call that faults has changed nothing"). -/
def orRaise {α : Type} (r : Except FaultKind α) (s : State)
    (go : α → Host.Outcome State Fault Refusal) : Host.Outcome State Fault Refusal :=
  match r with
  | .ok a => go a
  | .error k => raise k s

/-! ### Fetch and advance -/

/-- `MemRead((0, pc), 1)`: fetch is an ordinary read of segment 0 (40_cycle.md R81, 20_memory.md R61). -/
def fetch (s : State) : Except FaultKind Word := memRead 0 s.pc.toNat s

/-- `pc <- pc + 1` (40_cycle.md R82; for the top of the range, notes/assumptions/7.md). -/
def advance (s : State) : State := { s with pc := s.pc + 1 }

end Sys2Proof.Machine
end

