-- ==== Sys2Proof/Machine/Alu.lean ====
section
/-! DEFINITION. Register and arithmetic instructions: CMOV, ADD, MUL, DIV, NAND, LOADIMM (41_alu.md).
Every source is read from the state before the write (40_cycle.md R83, R88). -/

namespace Sys2Proof.Machine

/-- CMOV, opcode 0 (41_alu.md R90). -/
def execCmov (a b c : Reg) (s : State) : Host.Outcome State Fault Refusal :=
  if s.reg c ≠ 0 then .next (s.setReg a (s.reg b)) else .next s

/-- ADD, opcode 3 (41_alu.md R91). -/
def execAdd (a b c : Reg) (s : State) : Host.Outcome State Fault Refusal :=
  .next (s.setReg a (narrow ((s.reg b).toNat + (s.reg c).toNat)))

/-- MUL, opcode 4 (41_alu.md R92). -/
def execMul (a b c : Reg) (s : State) : Host.Outcome State Fault Refusal :=
  .next (s.setReg a (narrow ((s.reg b).toNat * (s.reg c).toNat)))

/-- DIV, opcode 5 (41_alu.md R93). -/
def execDiv (a b c : Reg) (s : State) : Host.Outcome State Fault Refusal :=
  if s.reg c = 0 then raise .divisionByZero s
  else .next (s.setReg a (narrow ((s.reg b).toNat / (s.reg c).toNat)))

/-- NAND, opcode 6 (41_alu.md R94). -/
def execNand (a b c : Reg) (s : State) : Host.Outcome State Fault Refusal :=
  .next (s.setReg a (~~~(s.reg b &&& s.reg c)))

/-- LOADIMM, opcode 13 (41_alu.md R96). -/
def execLoadimm (A : Reg) (imm : Nat) (s : State) : Host.Outcome State Fault Refusal :=
  .next (s.setReg A (immediateValue imm))

end Sys2Proof.Machine
end

