-- ==== Sys2Proof/Machine/Control.lean ====
section
/-! DEFINITION. Control: HALT, LOADPROG (45_control.md), and the two illegal opcodes (40_cycle.md R85). -/

namespace Sys2Proof.Machine

/-- HALT, opcode 7 (45_control.md R118). -/
def execHalt (s : State) : Host.Outcome State Fault Refusal := .next { s with status := .halted }

/-- LOADPROG, opcode 12: the target replaces the advanced pc and is not checked here
(45_control.md R119). -/
def execLoadprog (b c : Reg) (s : State) : Host.Outcome State Fault Refusal :=
  if s.reg b ≠ 0 then
    orRaise (replaceZero (s.reg b).toNat s) s fun t => .next { t with pc := s.reg c }
  else .next { s with pc := s.reg c }

/-- Opcode 14 raises InvalidOpcode (40_cycle.md R85). -/
def execIllegal14 (s : State) : Host.Outcome State Fault Refusal := raise .invalidOpcode s

/-- Opcode 15 raises InvalidOpcode (40_cycle.md R85). -/
def execIllegal15 (s : State) : Host.Outcome State Fault Refusal := raise .invalidOpcode s

end Sys2Proof.Machine
end

