-- ==== Sys2Proof/Machine/Io.lean ====
section
/-! DEFINITION. Input and output: OUT, IN (44_io.md). The collaborators are sequences in the state, so
they always answer (44_io.md R115; notes/assumptions/5.md). -/

namespace Sys2Proof.Machine

/-- OUT, opcode 10: the value is not truncated, above 255 it faults (44_io.md R111). -/
def execOut (c : Reg) (s : State) : Host.Outcome State Fault Refusal :=
  if outMax < (s.reg c).toNat then raise .invalidOutputValue s
  else .next (outByte (BitVec.ofNat 8 (s.reg c).toNat) s)

/-- IN, opcode 11 (44_io.md R113). -/
def execInp (c : Reg) (s : State) : Host.Outcome State Fault Refusal :=
  match inByte s with
  | (none, t) => .next (t.setReg c eosValue)
  | (some b, t) => .next (t.setReg c (byteValue b))

end Sys2Proof.Machine
end

