-- ==== Sys2Proof/Machine/SegmentAccess.lean ====
section
/-! DEFINITION. Segment load and store: SLOAD, SSTORE (42_segment_access.md). -/

namespace Sys2Proof.Machine

/-- SLOAD, opcode 1: field b names the segment, field c the offset (42_segment_access.md R100). -/
def execSload (a b c : Reg) (s : State) : Host.Outcome State Fault Refusal :=
  orRaise (memRead (s.reg b).toNat (s.reg c).toNat s) s fun v => .next (s.setReg a v)

/-- SSTORE, opcode 2: field a names the segment, field b the offset, field c the value
(42_segment_access.md R101). -/
def execSstore (a b c : Reg) (s : State) : Host.Outcome State Fault Refusal :=
  orRaise (memWrite (s.reg a).toNat (s.reg b).toNat (s.reg c) s) s fun t => .next t

end Sys2Proof.Machine
end

