-- ==== Sys2Proof/Machine/SegmentManagement.lean ====
section
/-! DEFINITION. Segment management: MAP, UNMAP (43_segment_management.md). -/

namespace Sys2Proof.Machine

/-- MAP, opcode 8: the destination is field b (43_segment_management.md R106). -/
def execMap (b c : Reg) (s : State) : Host.Outcome State Fault Refusal :=
  orRaise (alloc (s.reg c).toNat s) s fun r => .next (r.2.setReg b (BitVec.ofNat 32 r.1))

/-- UNMAP, opcode 9: id 0 is refused by a MemoryFault before the manager is asked
(43_segment_management.md R108). -/
def execUnmap (c : Reg) (s : State) : Host.Outcome State Fault Refusal :=
  if s.reg c = 0 then raise .memoryFault s
  else orRaise (free (s.reg c).toNat s) s fun t => .next t

end Sys2Proof.Machine
end

