-- ==== Sys2Proof/Machine/Step.lean ====
section
/-! DEFINITION. The one step of the machine (40_cycle.md R80): fetch, advance, decode, execute. -/

namespace Sys2Proof.Machine

/-- A step is enabled exactly when the status is Running (40_cycle.md R80). A fetch that faults leaves
pc unchanged (R81); every later fault leaves it advanced (R82). -/
def step (s : State) : Host.Outcome State Fault Refusal :=
  match s.status with
  | .halted => .fault .halted
  | .faulted k => .fault (.faulted k)
  | .running => orRaise (fetch s) s fun w => exec (decode w) (advance s)

/-- The state with a table word placed where the next step fetches: at offset pc of segment 0, which is
made long enough to hold it, and with the status Running, without which no step is enabled. It stands
for the loading of a program at construction (notes/assumptions/3.md). -/
def State.withFetchWord (s : State) (nbits w : Nat) : State :=
  let g := (s.segment 0).getD (Segment.zeros 0)
  let long : Segment := { g with len := max g.len (s.pc.toNat + 1) }
  { s with status := .running,
           seg := Table.put s.seg 0
             (long.store s.pc.toNat (BitVec.ofNat 32 (w % 2 ^ (min nbits 32)))) }

end Sys2Proof.Machine
end

