-- ==== Sys2Proof/Machine/Construct.lean ====
section
/-! DEFINITION. Construction, the machine's only reset, and the loader in front of it
(70_reset_and_hazards.md R140 to R144, 10_state.md R33, R38). -/

namespace Sys2Proof.Machine

/-- Why no machine is constructed. -/
inductive Rejection where
  /-- the image is not a multiple of four bytes (70_reset_and_hazards.md R144) -/
  | loadFailure
  /-- the program has 2^32 words or more (70_reset_and_hazards.md R141, decision D3) -/
  | programTooLong
  deriving DecidableEq, Repr

/-- `MAX_PROGRAM_WORDS` (00_scope.md R6, 10_state.md R26). -/
def maxProgramWords : Nat := 2 ^ 32 - 1

/-- The cells of a sequence of words from offset k on, less those an unlisted offset already holds. -/
def cellsFrom : Nat → List Word → List (Nat × Word)
  | _, [] => []
  | k, w :: ws => if w = unlistedWord then cellsFrom (k + 1) ws else (k, w) :: cellsFrom (k + 1) ws

/-- The segment that holds a sequence of words (10_state.md R26). -/
def Segment.ofWords (ws : List Word) : Segment := { len := ws.length, words := cellsFrom 0 ws }

/-- Construction with the three open parameters (10_state.md R38; 70_reset_and_hazards.md R142).
Segment 0 is bound without the allocation path. -/
def construct (program : List Word) (input : List Byte) (config : Config) : Except Rejection State :=
  if maxProgramWords < program.length then .error .programTooLong
  else .ok {
    regs := Regs.zero
    pc := 0
    status := .running
    seg := [(0, Segment.ofWords program)]
    pool := []
    nextId := 1
    input := input
    output := []
    config := config }

/-- Four bytes, most significant first, make one word (70_reset_and_hazards.md R143). -/
def wordOfBytes (b0 b1 b2 b3 : Byte) : Word :=
  BitVec.ofNat 32 (b0.toNat * 2 ^ 24 + b1.toNat * 2 ^ 16 + b2.toNat * 2 ^ 8 + b3.toNat)

/-- The loader: "groups every four bytes (most-significant byte first) into one 32-bit word"
(70_reset_and_hazards.md R143); a trailing partial word rejects the whole image (R144). -/
def imageWords : List Byte → Except Rejection (List Word)
  | [] => .ok []
  | b0 :: b1 :: b2 :: b3 :: rest =>
    match imageWords rest with
    | .ok ws => .ok (wordOfBytes b0 b1 b2 b3 :: ws)
    | .error e => .error e
  | _ => .error .loadFailure

/-- `load_program(bytes)` and construction (20_memory.md R51; 70_reset_and_hazards.md R142). -/
def load (image : List Byte) (input : List Byte) (config : Config) : Except Rejection State :=
  match imageWords image with
  | .ok program => construct program input config
  | .error e => .error e

end Sys2Proof.Machine
end

