-- ==== Sys2Proof/Machine/Run.lean ====
section
/-! DEFINITION. The host's run (10_state.md R34, 40_cycle.md R86, 70_reset_and_hazards.md R147). -/

namespace Sys2Proof.Machine

/-- The step repeated while it is enabled, at most `n` times: the machine bounds no run, so the fuel is
the model's own (40_cycle.md R86). A state with no step is where the run stays. -/
def run : Nat → State → State
  | 0, s => s
  | n + 1, s =>
    match step s with
    | .next t => run n t
    | .fault _ => s
    | .refused _ => s

/-- A run ends at the first state whose status is not Running (70_reset_and_hazards.md R147). -/
def State.ended (s : State) : Bool := s.status != .running

/-- What the host can observe of a finished run (70_reset_and_hazards.md R147). -/
def State.observed (s : State) : Status × List Byte := (s.status, s.output)

end Sys2Proof.Machine
end

