-- ==== Sys2Proof/Safety.lean ====
section
/-! DEFINITION. The invariant of the memory manager's state and what a safe run is. -/

namespace Sys2Proof.Machine

/-- The invariants of 10_state.md R31, (a) to (f), with the canonical form of memory and the range of
`next_id` (R30). (f) is the direction from right to left of `ids_minted`, read for ids at or above
`nextId`. -/
structure Inv (s : State) : Prop where
  /-- memory is in its canonical form, with ids below 2^32 and lengths below 2^32 (R26, R27) -/
  memory : Memory.wf s.seg
  /-- (a) segment 0 is live -/
  zero_live : s.live 0 = true
  /-- (b) the ids in the pool are pairwise distinct -/
  pool_distinct : s.pool.Nodup
  /-- (c) no id in the pool is live -/
  pool_dead : ∀ id ∈ s.pool, s.live id = false
  /-- (d) 0 is not in the pool -/
  zero_not_pooled : 0 ∉ s.pool
  /-- (e), (f) the live ids together with the ids in the pool are exactly those below `next_id` -/
  ids_minted : ∀ id, (s.live id = true ∨ id ∈ s.pool) ↔ id < s.nextId
  /-- `next_id` is in `[1, 2^32]` (R30) -/
  next_range : 1 ≤ s.nextId ∧ s.nextId ≤ idLimit

/-- The live words fit the capacity the configuration gives (20_memory.md R56). -/
def WithinMemory (s : State) : Prop := withinCapacity s.config (wordsLive s.seg) = true

/-- A safe run is one that never faults (70_reset_and_hazards.md R153): from `s`, however many steps
are taken, the status is Running or Halted. -/
def SafeRun (s : State) : Prop := ∀ n k, (run n s).status ≠ .faulted k

end Sys2Proof.Machine
end

