-- ==== Sys2Proof/Certificates/Slice0/Obligations.lean ====
section
/-! DEFINITION. The statements about this model, for the provers. Sys2Proof.Claims holds the vocabulary
they share; each statement cites the rule of spec/ it formalises. -/

namespace Sys2Proof.Claims

open Sys2Proof.Machine

/-! ### Words, bit by bit -/

/-- Bits 31:28 of the word are `op`. -/
def HasOp (w : Word) (op : Nat) : Prop := (w.extractLsb 31 28).toNat = op
/-- Bits 8:6 of the word name register `r`. -/
def HasA (w : Word) (r : Reg) : Prop := (w.extractLsb 8 6).toNat = r.index
/-- Bits 5:3 of the word name register `r`. -/
def HasB (w : Word) (r : Reg) : Prop := (w.extractLsb 5 3).toNat = r.index
/-- Bits 2:0 of the word name register `r`. -/
def HasC (w : Word) (r : Reg) : Prop := (w.extractLsb 2 0).toNat = r.index

/-- The bits a word of opcode `op` does not use: bits 27:9 and the unused register fields
(30_encoding.md R70 column "fields used", R71, R72). -/
def unusedBits (op : Nat) : Word :=
  if op ≤ 6 then 0x0FFFFE00#32          -- a, b, c used
  else if op = 7 then 0x0FFFFFFF#32     -- HALT: none
  else if op = 8 then 0x0FFFFFC0#32     -- MAP: b, c
  else if op ≤ 11 then 0x0FFFFFF8#32    -- UNMAP, OUT, IN: c
  else if op = 12 then 0x0FFFFFC0#32    -- LOADPROG: b, c
  else 0#32                             -- LOADIMM: every bit is used

/-! ### What stays as it was -/

/-- Every register keeps its value. -/
def KeepsRegs (s t : State) : Prop := ∀ q, t.reg q = s.reg q
/-- Every register but `r` keeps its value. -/
def KeepsRegsBut (r : Reg) (s t : State) : Prop := ∀ q, q ≠ r → t.reg q = s.reg q
/-- Every word of every segment reads as before, and no segment appears, vanishes or changes. -/
def KeepsMemory (s t : State) : Prop :=
  (∀ id off, memRead id off t = memRead id off s) ∧ t.seg = s.seg
/-- The pool and the next id. -/
def KeepsIds (s t : State) : Prop := t.pool = s.pool ∧ t.nextId = s.nextId
/-- The input and the output stream. -/
def KeepsStreams (s t : State) : Prop := t.input = s.input ∧ t.output = s.output
/-- The program counter and the status. -/
def KeepsControl (s t : State) : Prop := t.pc = s.pc ∧ t.status = s.status
/-- The parameters of the machine. -/
def KeepsConfig (s t : State) : Prop := t.config = s.config

/-- Nothing but register `r` changes. -/
def OnlyRegister (r : Reg) (s t : State) : Prop :=
  KeepsRegsBut r s t ∧ KeepsMemory s t ∧ KeepsIds s t ∧ KeepsStreams s t ∧ KeepsControl s t ∧
  KeepsConfig s t

/-- The instruction raises `k`: the status becomes `Faulted(k)` and nothing else of the state after
the advance changes (60_exceptions.md R128). -/
def Raises (i : Instr) (s : State) (k : FaultKind) : Prop :=
  exec i s = .next { s with status := .faulted k }

/-- The address `(id, off)` exists: the id is live and the offset is below the segment's length. -/
def InBounds (s : State) (id off : Nat) : Prop := ∃ g, s.segment id = some g ∧ off < g.len

/-- The words live do not pass MEM_WORDS_MAX when they are `total` (20_memory.md R45, R50). -/
def Fits (s : State) (total : Nat) : Prop := ∀ most, s.config.memWordsMax = some most → total ≤ most

/-- The id the next allocation takes: the top of the pool, else the next id (20_memory.md R45). -/
def nextFresh (s : State) : Nat :=
  match s.pool with
  | id :: _ => id
  | [] => s.nextId

/-- No id is left (20_memory.md R45). -/
def NoIdLeft (s : State) : Prop := s.pool = [] ∧ s.nextId = 2 ^ 32

/-- The words live: the lengths of all segments of the table, added up (20_memory.md R45). -/
def liveWords (s : State) : Nat := (s.seg.map fun p => p.2.len).sum

/-- The length of segment 0, 0 where the table binds no segment 0. -/
def zeroLen (s : State) : Nat :=
  match s.segment 0 with
  | some g => g.len
  | none => 0

/-- The invariants (a) to (f) of the memory manager's state (10_state.md R31). -/
def ManagerInvariants (s : State) : Prop :=
  s.live 0 = true ∧
  s.pool.Nodup ∧
  (∀ id ∈ s.pool, s.live id = false) ∧
  0 ∉ s.pool ∧
  (∀ id, (s.live id = true ∨ id ∈ s.pool) ↔ id < s.nextId) ∧
  (∀ id, s.nextId ≤ id → s.live id = false ∧ id ∉ s.pool)

/-! ### The tables of the spec -/

/-- The register an instruction writes in the state it runs in (10_state.md R21, column "writes"). -/
def writes (s : State) : Instr → Option Reg
  | .cmov a _ c => if s.reg c ≠ 0 then some a else none
  | .sload a _ _ => some a
  | .sstore _ _ _ => none
  | .add a _ _ => some a
  | .mul a _ _ => some a
  | .div a _ _ => some a
  | .nand a _ _ => some a
  | .halt => none
  | .map b _ => some b
  | .unmap _ => none
  | .out _ => none
  | .inp c => some c
  | .loadprog _ _ => none
  | .loadimm A _ => some A
  | .illegal14 => none
  | .illegal15 => none

/-- The registers whose value an instruction uses (10_state.md R21, column "uses the value of"). -/
def uses : Instr → List Reg
  | .cmov _ b c => [b, c]
  | .sload _ b c => [b, c]
  | .sstore a b c => [a, b, c]
  | .add _ b c => [b, c]
  | .mul _ b c => [b, c]
  | .div _ b c => [b, c]
  | .nand _ b c => [b, c]
  | .halt => []
  | .map _ c => [c]
  | .unmap c => [c]
  | .out c => [c]
  | .inp _ => []
  | .loadprog b c => [b, c]
  | .loadimm _ _ => []
  | .illegal14 => []
  | .illegal15 => []

/-- When an instruction raises a fault of a kind (60_exceptions.md R126, the rows after the fetch). -/
def faultCondition (s : State) : Instr → FaultKind → Prop
  | .illegal14, .invalidOpcode => True
  | .illegal15, .invalidOpcode => True
  | .sload _ b c, .memoryFault => ¬ InBounds s (s.reg b).toNat (s.reg c).toNat
  | .sstore a b _, .memoryFault => ¬ InBounds s (s.reg a).toNat (s.reg b).toNat
  | .div _ _ c, .divisionByZero => s.reg c = 0
  | .map _ c, .allocationFailure => NoIdLeft s ∨ ¬ Fits s (liveWords s + (s.reg c).toNat)
  | .unmap c, .memoryFault => s.reg c = 0 ∨ s.segment (s.reg c).toNat = none
  | .out c, .invalidOutputValue => 255 < (s.reg c).toNat
  | .loadprog b _, .memoryFault => s.reg b ≠ 0 ∧ s.segment (s.reg b).toNat = none
  | .loadprog b _, .allocationFailure =>
    s.reg b ≠ 0 ∧ ∃ g, s.segment (s.reg b).toNat = some g ∧
      ¬ Fits s (liveWords s - zeroLen s + g.len)
  | _, _ => False

/-- Free a sequence of ids, first to last. -/
def freeAll : List Nat → State → Option State
  | [], s => some s
  | id :: ids, s =>
    match free id s with
    | .ok t => freeAll ids t
    | .error _ => none

/-- Allocate a sequence of sizes, first to last, and list the ids. -/
def allocAll : List Nat → State → Option (List Nat × State)
  | [], s => some ([], s)
  | size :: sizes, s =>
    match alloc size s with
    | .ok (id, t) =>
      match allocAll sizes t with
      | some (ids, u) => some (id :: ids, u)
      | none => none
    | .error _ => none

end Sys2Proof.Claims

open Sys2Proof Sys2Proof.Machine Sys2Proof.Claims

/-! ### Encoding -/

/-- Decoding an encoded well-formed instruction gives it back, with every operand at every value the
encoding admits (30_encoding.md R66, R67, R70). -/
def Obligations.DecodingAnEncodedInstructionGivesItBack : Prop :=
  ∀ i : Instr, i.wf = true → decode (encode i) = i

/-- Re-encoding a decoded word gives the word with its unused bits cleared, hence the word itself when
it is canonical; the canonical word decodes to the same instruction; the assembler emits for each instruction
the one word of its opcode and operands whose unused bits are zero, and refuses an immediate of 2^25 or
more (30_encoding.md R77, an inference the spec marks as its own from R66 and R67). -/
def Obligations.ReencodingADecodedWordClearsItsUnusedBits : Prop :=
  (∀ (w : Word) (op : Nat), HasOp w op → op ≤ 13 →
    encode (decode w) = w &&& ~~~unusedBits op ∧
    (w &&& unusedBits op = 0 → encode (decode w) = w) ∧
    decode (encode (decode w)) = decode w ∧
    assemble (decode w) = some (encode (decode w))) ∧
  (∀ (i : Instr) (w : Word), assemble i = some w →
    HasOp w i.opcode ∧ w &&& unusedBits i.opcode = 0 ∧ decode w = i) ∧
  (∀ (A : Reg) (imm : Nat), 2 ^ 25 ≤ imm → assemble (.loadimm A imm) = none)

/-- Two words of one opcode that agree on the bits the opcode uses are the same instruction, and no
value of the unused bits makes a word of opcodes 0 to 12 illegal (30_encoding.md R71, R72; the spec's
decisions D5 and D4). -/
def Obligations.UnusedBitsOfAWordDoNotMatter : Prop :=
  (∀ (v w : Word) (op : Nat), HasOp v op → HasOp w op → op ≤ 12 →
    (v ^^^ w) &&& ~~~unusedBits op = 0 → decode v = decode w) ∧
  (∀ (w : Word) (op : Nat), HasOp w op → op ≤ 12 →
    decode w ≠ .illegal14 ∧ decode w ≠ .illegal15)

/-- The opcode field alone selects the instruction, every word decodes to a well-formed instruction,
and the words 0xE0000000 and above, and no others, are the illegal ones (30_encoding.md R68, R70,
R73, R74). -/
def Obligations.TheOpcodeFieldSelectsTheInstruction : Prop :=
  ∀ w : Word, HasOp w (decode w).opcode ∧ (decode w).wf = true ∧
    ((decode w = .illegal14 ∨ decode w = .illegal15) ↔ 0xE0000000 ≤ w.toNat)

/-- The worked decodings of 30_encoding.md R78, whose words the spec derives from R66, R67 and R70. -/
def Obligations.TheWorkedDecodingsDecodeAsWritten : Prop :=
  decode 0xD2000041#32 = .loadimm .r1 65 ∧
  decode 0xA0000001#32 = .out .r1 ∧
  decode 0x70000000#32 = .halt ∧
  decode 0x00000053#32 = .cmov .r1 .r2 .r3 ∧
  decode 0x500000CA#32 = .div .r3 .r1 .r2 ∧
  decode 0x80000013#32 = .map .r2 .r3 ∧
  decode 0x3000004A#32 = .add .r1 .r1 .r2 ∧
  decode 0xDFFFFFFF#32 = .loadimm .r7 33554431 ∧
  decode 0x3FFFFE4A#32 = .add .r1 .r1 .r2 ∧
  decode 0xE0000000#32 = .illegal14 ∧
  decode 0xF1234567#32 = .illegal15

/-! ### The step -/

/-- The one step: in a running machine whose fetch finds the word `w`, the step is the decoded
instruction run with pc advanced; a fetch at or beyond the length of segment 0 raises MemoryFault and
changes nothing else, pc included (40_cycle.md R80, R81, R82). -/
def Obligations.AStepRunsTheDecodedInstruction : Prop :=
  (∀ (s : State) (g : Segment), s.status = .running → s.segment 0 = some g → s.pc.toNat < g.len →
    step s = exec (decode (g.wordAt s.pc.toNat)) { s with pc := s.pc + 1 }) ∧
  (∀ s : State, s.status = .running → ¬ InBounds s 0 s.pc.toNat →
    step s = .next { s with status := .faulted .memoryFault })

/-- A step is enabled exactly when the status is Running; a machine that has stopped has no step, and
what it answers instead (the model's choice, notes/assumptions/1.md) says how it stopped
(10_state.md R24, 40_cycle.md R80). -/
def Obligations.AStepIsEnabledExactlyWhenRunning : Prop :=
  (∀ s : State, (∃ t, step s = .next t) ↔ s.status = .running) ∧
  (∀ s : State, s.status = .halted → step s = .fault .halted) ∧
  (∀ (s : State) (k : FaultKind), s.status = .faulted k → step s = .fault (.faulted k))

/-- How each step changes pc: unchanged when the fetch faults with MemoryFault, the target after a LOADPROG that does
not fault, and one more otherwise, HALT and every instruction that faults after the fetch included; the
increment never wraps (10_state.md R23, in part an inference the spec marks as its own). -/
def Obligations.HowAStepChangesThePc : Prop :=
  ∀ s t : State, Inv s → step s = .next t →
    (¬ InBounds s 0 s.pc.toNat → t.pc = s.pc ∧ t.status = .faulted .memoryFault) ∧
    (∀ g, s.segment 0 = some g → s.pc.toNat < g.len →
      (∀ b c, decode (g.wordAt s.pc.toNat) = .loadprog b c → t.status = .running →
        t.pc = s.reg c) ∧
      (((∀ b c, decode (g.wordAt s.pc.toNat) ≠ .loadprog b c) ∨ t.status ≠ .running) →
        t.pc.toNat = s.pc.toNat + 1))

/-- Faults are precise: a step that faults changes the status and, unless the fetch itself faulted, the
advanced pc, and nothing else; no later instruction has any effect (40_cycle.md R87, an inference the
spec marks as its own). -/
def Obligations.FaultsArePrecise : Prop :=
  ∀ (s t : State) (k : FaultKind), step s = .next t → t.status = .faulted k →
    KeepsRegs s t ∧ KeepsMemory s t ∧ KeepsIds s t ∧ KeepsStreams s t ∧ KeepsConfig s t ∧
    ((¬ InBounds s 0 s.pc.toNat ∧ t.pc = s.pc) ∨ (InBounds s 0 s.pc.toNat ∧ t.pc = s.pc + 1)) ∧
    (∀ u, step t ≠ .next u) ∧ (∀ n, run n t = t)

/-- The table of faults is complete: a fetch out of bounds raises MemoryFault, and after the fetch an
instruction raises a kind exactly under the condition the table lists for it; what the fault has changed
is the status and, after the fetch, the advanced pc (60_exceptions.md R126). -/
def Obligations.EveryFaultHasItsListedCause : Prop :=
  (∀ (s t : State) (k : FaultKind), ¬ InBounds s 0 s.pc.toNat → step s = .next t →
    (t.status = .faulted k ↔ k = .memoryFault) ∧ t = { s with status := .faulted .memoryFault }) ∧
  (∀ (s t : State) (g : Segment) (k : FaultKind), s.segment 0 = some g → s.pc.toNat < g.len →
    step s = .next t →
    (t.status = .faulted k ↔ faultCondition s (decode (g.wordAt s.pc.toNat)) k) ∧
    (t.status = .faulted k → t = { s with pc := s.pc + 1, status := .faulted k }))

/-- An instruction writes no register but the one its row lists, and uses the value of no register but
those its row lists: giving another register a different value changes nothing of the outcome but that
register (10_state.md R21). -/
def Obligations.RegistersReadAndWrittenAreThoseListed : Prop :=
  (∀ (i : Instr) (s t : State), exec i s = .next t → ∀ q, writes s i ≠ some q → t.reg q = s.reg q) ∧
  (∀ (i : Instr) (s : State) (q : Reg) (v : Word), q ∉ uses i →
    ∃ t u, exec i s = .next t ∧ exec i (s.setReg q v) = .next u ∧
      (∀ r, r ≠ q → u.reg r = t.reg r) ∧
      (u.reg q = t.reg q ∨ (u.reg q = v ∧ t.reg q = s.reg q)) ∧
      u.pc = t.pc ∧ u.status = t.status ∧ u.seg = t.seg ∧ u.pool = t.pool ∧ u.nextId = t.nextId ∧
      u.input = t.input ∧ u.output = t.output ∧ u.config = t.config)

/-- The status changes at most once in a run: once a run has stopped, further steps leave everything as
it is, and a run whose last status is Running was Running all along (10_state.md R24, R34). -/
def Obligations.ARunStopsAtMostOnce : Prop :=
  ∀ (s : State) (n m : Nat),
    ((run n s).status ≠ .running → run (n + m) s = run n s) ∧
    ((run (n + m) s).status = .running → (run n s).status = .running)

/-! ### Invariants -/

/-- The invariants of the memory manager's state hold at construction, for every program, input and
capacity, and every step keeps them (10_state.md R31, an inference the spec marks as its own). -/
def Obligations.TheManagersInvariantsHoldAndAreKept : Prop :=
  (∀ (program : List Word) (input : List Byte) (config : Config) (s : State),
    construct program input config = .ok s → ManagerInvariants s) ∧
  (∀ s t : State, ManagerInvariants s → step s = .next t → ManagerInvariants t)

/-- The model's invariant, that is those invariants with the canonical form of memory
(notes/assumptions/4.md), lengths and ids below 2^32 and next_id at most 2^32, holds at construction
and is kept by every step. -/
def Obligations.EveryStepKeepsMemoryCanonicalAndIdsInRange : Prop :=
  (∀ (program : List Word) (input : List Byte) (config : Config) (s : State),
    construct program input config = .ok s → Inv s) ∧
  (∀ s t : State, Inv s → step s = .next t → Inv t)

/-- The model's invariant holds at reset. -/
def Obligations.TheModelsInvariantHoldsAtReset : Prop := Inv State.reset

/-- The live words never pass the capacity, once they are within it (20_memory.md R56, decision D8). -/
def Obligations.LiveWordsStayWithinTheCapacity : Prop :=
  ∀ s t : State, Inv s → Fits s (liveWords s) → step s = .next t → Fits t (liveWords t)

/-- The parameters are fixed for a run; that they stand in the state is the model's choice
(10_state.md R39; notes/assumptions/2.md). -/
def Obligations.TheConfigurationIsFixedForARun : Prop :=
  ∀ (s : State) (n : Nat), (run n s).config = s.config

/-- No step changes the length of an existing segment, except that a LOADPROG with a non-zero id binds
id 0 to a copy of another segment (10_state.md R26). -/
def Obligations.ExistingSegmentsKeepTheirLength : Prop :=
  ∀ (s t : State) (id : Nat) (g g' : Segment), Inv s → step s = .next t →
    s.segment id = some g → t.segment id = some g' →
    g'.len = g.len ∨
    (id = 0 ∧ ∃ p b c src, s.segment 0 = some p ∧ s.pc.toNat < p.len ∧
      decode (p.wordAt s.pc.toNat) = .loadprog b c ∧ s.reg b ≠ 0 ∧
      s.segment (s.reg b).toNat = some src ∧ g'.len = src.len)

/-- Only OUT writes the output stream, by appending one byte; over a run what was emitted is never
taken back (10_state.md R36, 44_io.md R111). -/
def Obligations.EmittedBytesAreNeverTakenBack : Prop :=
  (∀ s t : State, step s = .next t →
    t.output = s.output ∨
    ∃ g c, s.segment 0 = some g ∧ s.pc.toNat < g.len ∧ decode (g.wordAt s.pc.toNat) = .out c ∧
      t.output = s.output ++ [BitVec.ofNat 8 (s.reg c).toNat]) ∧
  (∀ (s : State) (n : Nat), s.output <+: (run n s).output)

/-- Only IN reads the input stream, one byte at a time from its front; over a run what is left is the
end of what there was (10_state.md R35, 44_io.md R113). -/
def Obligations.InputIsConsumedInOrderByInOnly : Prop :=
  (∀ s t : State, step s = .next t →
    t.input = s.input ∨
    ∃ g c b, s.segment 0 = some g ∧ s.pc.toNat < g.len ∧ decode (g.wordAt s.pc.toNat) = .inp c ∧
      s.input = b :: t.input) ∧
  (∀ (s : State) (n : Nat), (run n s).input <:+ s.input)

/-- The life cycle of an id: never minted, live or pooled, exactly one of the three; a step changes the
condition of an id only by MAP (the top pooled id, or else the smallest never-minted one, becomes live)
or by UNMAP (a live id becomes pooled); every access to an id that is not live is a MemoryFault; id 0 is
live before and after every step (43_segment_management.md R109, an inference the spec marks as its
own). -/
def Obligations.TheLifeCycleOfAnId : Prop :=
  (∀ (s : State) (id : Nat), Inv s →
    ((s.nextId ≤ id ∧ s.live id = false ∧ id ∉ s.pool) ∨
     (id < s.nextId ∧ s.live id = true ∧ id ∉ s.pool) ∨
     (id < s.nextId ∧ s.live id = false ∧ id ∈ s.pool))) ∧
  (∀ (s t : State) (id : Nat), Inv s → step s = .next t →
    ((t.live id = s.live id ∧ (id ∈ t.pool ↔ id ∈ s.pool) ∧ (t.nextId ≤ id ↔ s.nextId ≤ id)) ∨
     ∃ g, s.segment 0 = some g ∧ s.pc.toNat < g.len ∧
      ((∃ b c, decode (g.wordAt s.pc.toNat) = .map b c ∧ id = nextFresh s ∧
          s.live id = false ∧ t.live id = true ∧ id ∉ t.pool ∧ id < t.nextId) ∨
       (∃ c, decode (g.wordAt s.pc.toNat) = .unmap c ∧ id = (s.reg c).toNat ∧ id ≠ 0 ∧
          s.live id = true ∧ t.live id = false ∧ id ∈ t.pool ∧ id < t.nextId)))) ∧
  (∀ (s : State) (id off : Nat) (v : Word), s.live id = false →
    memRead id off s = .error .memoryFault ∧ memWrite id off v s = .error .memoryFault ∧
    free id s = .error .memoryFault ∧ segLen id s = .error .memoryFault ∧
    replaceZero id s = .error .memoryFault) ∧
  (∀ s t : State, Inv s → step s = .next t → s.live 0 = true ∧ t.live 0 = true)

/-! ### The memory manager's operations -/

/-- MemRead and MemWrite: both fault exactly when the address does not exist; a write changes exactly
the word addressed, keeps every length, and what it wrote is what is read back (20_memory.md R47, R48). -/
def Obligations.WordsAreReadBackAsWritten : Prop :=
  (∀ (s : State) (id off : Nat), ¬ InBounds s id off → memRead id off s = .error .memoryFault) ∧
  (∀ (s : State) (id off : Nat) (g : Segment), s.segment id = some g → off < g.len →
    memRead id off s = .ok (g.wordAt off)) ∧
  (∀ (s : State) (id off : Nat) (v : Word), ¬ InBounds s id off →
    memWrite id off v s = .error .memoryFault) ∧
  (∀ (s : State) (id off : Nat) (v : Word), InBounds s id off →
    ∃ t, memWrite id off v s = .ok t ∧ memRead id off t = .ok v ∧
      (∀ i o, (i ≠ id ∨ o ≠ off) → memRead i o t = memRead i o s) ∧
      (∀ i, segLen i t = segLen i s) ∧
      KeepsRegs s t ∧ KeepsIds s t ∧ KeepsStreams s t ∧ KeepsControl s t ∧ KeepsConfig s t)

/-- Alloc: it fails exactly when no id is left or the capacity would be passed; else it binds the most
recently freed id, or the next sequential one when no freed id waits, to a segment of `size` zero words,
and changes nothing else (20_memory.md R45). -/
def Obligations.AllocReusesTheLastFreedIdOrMintsTheNext : Prop :=
  ∀ (s : State) (size : Nat),
    ((NoIdLeft s ∨ ¬ Fits s (liveWords s + size)) → alloc size s = .error .allocationFailure) ∧
    (¬ NoIdLeft s → Fits s (liveWords s + size) →
      ∃ t, alloc size s = .ok (nextFresh s, t) ∧
        (∃ g, t.segment (nextFresh s) = some g ∧ g.len = size ∧
          ∀ off, off < size → memRead (nextFresh s) off t = .ok 0) ∧
        (∀ i, i ≠ nextFresh s → t.segment i = s.segment i) ∧
        (∀ id rest, s.pool = id :: rest → t.pool = rest ∧ t.nextId = s.nextId) ∧
        (s.pool = [] → t.pool = [] ∧ t.nextId = s.nextId + 1) ∧
        KeepsRegs s t ∧ KeepsStreams s t ∧ KeepsControl s t ∧ KeepsConfig s t)

/-- Free: it fails exactly when the id is not live; else the segment is gone, the id is on top of the
pool, freeing it again fails, and nothing else changes (20_memory.md R46). -/
def Obligations.FreeUnbindsAnIdAndPushesItOnThePool : Prop :=
  ∀ (s : State) (id : Nat),
    (s.segment id = none → free id s = .error .memoryFault) ∧
    (∀ g, s.segment id = some g →
      ∃ t, free id s = .ok t ∧ t.segment id = none ∧ t.pool = id :: s.pool ∧
        (∀ i, i ≠ id → t.segment i = s.segment i) ∧ t.nextId = s.nextId ∧
        free id t = .error .memoryFault ∧
        KeepsRegs s t ∧ KeepsStreams s t ∧ KeepsControl s t ∧ KeepsConfig s t)

/-- ReplaceZero: it fails on an id that is not live, is a no-op on a live id 0, fails when the capacity
would be passed, and else makes segment 0 a copy of segment `id`: same length and words, every other
segment as it was, and afterwards a write to one of the two leaves the other as it is
(20_memory.md R50). -/
def Obligations.ReplaceZeroCopiesASegmentOverSegmentZero : Prop :=
  ∀ (s : State) (id : Nat),
    (s.segment id = none → replaceZero id s = .error .memoryFault) ∧
    (∀ g, s.segment id = some g →
      (id = 0 → replaceZero id s = .ok s) ∧
      (id ≠ 0 → ¬ Fits s (liveWords s - zeroLen s + g.len) →
        replaceZero id s = .error .allocationFailure) ∧
      (id ≠ 0 → Fits s (liveWords s - zeroLen s + g.len) →
        ∃ t, replaceZero id s = .ok t ∧ t.segment 0 = some g ∧ segLen 0 t = segLen id s ∧
          (∀ off, memRead 0 off t = memRead id off s) ∧
          (∀ i, i ≠ 0 → t.segment i = s.segment i) ∧
          (∀ off v u, memWrite id off v t = .ok u → ∀ o, memRead 0 o u = memRead 0 o t) ∧
          (∀ off v u, memWrite 0 off v t = .ok u → ∀ o, memRead id o u = memRead id o t) ∧
          KeepsRegs s t ∧ KeepsIds s t ∧ KeepsStreams s t ∧ KeepsControl s t ∧ KeepsConfig s t))

/-- Ids freed one after the other come back, last freed first, from as many allocations, whatever the
sizes asked for; none of those allocations mints (20_memory.md R45, R46; 43_segment_management.md R107). -/
def Obligations.FreedIdsComeBackInReverseOrder : Prop :=
  ∀ (s t u : State) (freed sizes got : List Nat), freeAll freed s = some t →
    sizes.length = freed.length → allocAll sizes t = some (got, u) →
    got = freed.reverse ∧ u.nextId = s.nextId ∧ u.pool = s.pool

/-- The reuse order of 20_memory.md R55, from any state with an empty pool, four ids left to mint and
room for the six segments, whatever their sizes: three allocations give n, n + 1, n + 2; after freeing
the second and then the first, the next three give the first, the second and n + 3. -/
def Obligations.TheWorkedReuseOrder : Prop :=
  ∀ (s : State) (z1 z2 z3 z4 z5 z6 : Nat),
    Fits s (liveWords s + (z1 + z2 + z3 + z4 + z5 + z6)) → s.pool = [] → s.nextId + 3 < 2 ^ 32 →
    ∃ t u v, allocAll [z1, z2, z3] s = some ([s.nextId, s.nextId + 1, s.nextId + 2], t) ∧
      t.nextId = s.nextId + 3 ∧
      freeAll [s.nextId + 1, s.nextId] t = some u ∧ u.pool = [s.nextId, s.nextId + 1] ∧
      allocAll [z4, z5, z6] u = some ([s.nextId, s.nextId + 1, s.nextId + 3], v)

/-- Fetch is an ordinary read of segment 0 and sees every store: after an SSTORE into segment 0 a fetch
of that index finds the new word; an SSTORE to the index right after its own is followed by a step that
runs the word stored; and after a LOADPROG with a non-zero id the next fetch reads the segment loaded
(20_memory.md R61). -/
def Obligations.TheNextFetchSeesEveryStore : Prop :=
  (∀ s : State, fetch s = memRead 0 s.pc.toNat s) ∧
  (∀ (s t : State) (a b c : Reg), exec (.sstore a b c) s = .next t → s.reg a = 0 →
    InBounds s 0 (s.reg b).toNat → fetch { t with pc := s.reg b } = .ok (s.reg c)) ∧
  (∀ (s t : State) (g : Segment) (a b c : Reg), step s = .next t → s.segment 0 = some g →
    s.pc.toNat < g.len → decode (g.wordAt s.pc.toNat) = .sstore a b c → s.reg a = 0 →
    s.reg b = s.pc + 1 → InBounds s 0 (s.reg b).toNat →
    step t = exec (decode (s.reg c)) { t with pc := t.pc + 1 }) ∧
  (∀ (s t : State) (b c : Reg) (g : Segment), exec (.loadprog b c) s = .next t → s.reg b ≠ 0 →
    s.segment (s.reg b).toNat = some g → Fits s (liveWords s - zeroLen s + g.len) →
    (s.reg c).toNat < g.len → fetch t = .ok (g.wordAt (s.reg c).toNat))

/-! ### Construction -/

/-- The state at construction, every row of the table of 10_state.md R38, for every program the machine
admits; a program of 2^32 words or more is refused (decision D3). -/
def Obligations.ConstructionGivesTheTableOfInitialValues : Prop :=
  ∀ (program : List Word) (input : List Byte) (config : Config),
    (program.length ≤ 2 ^ 32 - 1 →
      ∃ s, construct program input config = .ok s ∧ (∀ r, s.reg r = 0) ∧ s.pc = 0 ∧
        s.status = .running ∧ segLen 0 s = .ok program.length ∧
        (∀ (k : Nat) (h : k < program.length), memRead 0 k s = .ok program[k]) ∧
        (∀ id, id ≠ 0 → s.live id = false) ∧ s.pool = [] ∧ s.nextId = 1 ∧ s.input = input ∧
        s.output = [] ∧ s.config = config) ∧
    (2 ^ 32 ≤ program.length → ∃ e, construct program input config = .error e)

/-- Program images are big-endian, four bytes a word (70_reset_and_hazards.md R143). -/
def Obligations.ProgramImagesAreReadBigEndian : Prop :=
  ∀ (image : List Byte) (n : Nat) (h : image.length = 4 * n),
    ∃ ws, imageWords image = .ok ws ∧ ws.length = n ∧
      ∀ (k : Nat) (hk : k < n) (hw : k < ws.length),
        ws[k].toNat = (image[4 * k]).toNat * 2 ^ 24 + (image[4 * k + 1]).toNat * 2 ^ 16 +
          (image[4 * k + 2]).toNat * 2 ^ 8 + (image[4 * k + 3]).toNat

/-- An image whose byte count is not a multiple of four is rejected with LoadFailure, and no machine is
constructed (70_reset_and_hazards.md R144). -/
def Obligations.ImagesWithATrailingPartialWordAreRejected : Prop :=
  ∀ (image input : List Byte) (config : Config), image.length % 4 ≠ 0 →
    load image input config = .error .loadFailure

/-- A word placed where the machine fetches is what the next step runs, in every state: the interface
through which the host loads one instruction (notes/assumptions/3.md; 40_cycle.md R80). -/
def Obligations.APlacedWordIsTheNextInstruction : Prop :=
  ∀ (s : State) (nbits w : Nat), nbits ≤ 32 →
    ∃ i, decodeTableWord nbits w = some i ∧
      step (s.withFetchWord nbits w) =
        exec i { s.withFetchWord nbits w with pc := s.pc + 1 } ∧
      (∀ id, id ≠ 0 → (s.withFetchWord nbits w).segment id = s.segment id) ∧
      (∀ off, off ≠ s.pc.toNat → InBounds s 0 off →
        memRead 0 off (s.withFetchWord nbits w) = memRead 0 off s)

/-! ### The instructions: encoding, when each completes and with what result, what it leaves unchanged,
and when it faults -/

/-- CMOV (41_alu.md R90). -/
def Obligations.CmovMovesWhenTheConditionIsNotZero : Prop :=
  (∀ (w : Word) (a b c : Reg), HasOp w 0 → HasA w a → HasB w b → HasC w c →
    decode w = .cmov a b c) ∧
  (∀ a b c : Reg, (encode (.cmov a b c)).toNat = a.index * 64 + b.index * 8 + c.index) ∧
  (∀ (a b c : Reg) (s : State), s.reg c ≠ 0 →
    ∃ t, exec (.cmov a b c) s = .next t ∧ t.reg a = s.reg b ∧ OnlyRegister a s t) ∧
  (∀ (a b c : Reg) (s : State), s.reg c = 0 → exec (.cmov a b c) s = .next s)

/-- ADD (41_alu.md R91). -/
def Obligations.AddWritesTheSumModuloTwoToThe32 : Prop :=
  (∀ (w : Word) (a b c : Reg), HasOp w 3 → HasA w a → HasB w b → HasC w c →
    decode w = .add a b c) ∧
  (∀ a b c : Reg, (encode (.add a b c)).toNat = 0x30000000 + a.index * 64 + b.index * 8 + c.index) ∧
  (∀ (a b c : Reg) (s : State),
    ∃ t, exec (.add a b c) s = .next t ∧
      (t.reg a).toNat = ((s.reg b).toNat + (s.reg c).toNat) % 2 ^ 32 ∧ OnlyRegister a s t)

/-- MUL (41_alu.md R92). -/
def Obligations.MulWritesTheProductModuloTwoToThe32 : Prop :=
  (∀ (w : Word) (a b c : Reg), HasOp w 4 → HasA w a → HasB w b → HasC w c →
    decode w = .mul a b c) ∧
  (∀ a b c : Reg, (encode (.mul a b c)).toNat = 0x40000000 + a.index * 64 + b.index * 8 + c.index) ∧
  (∀ (a b c : Reg) (s : State),
    ∃ t, exec (.mul a b c) s = .next t ∧
      (t.reg a).toNat = ((s.reg b).toNat * (s.reg c).toNat) % 2 ^ 32 ∧ OnlyRegister a s t)

/-- DIV: the quotient is the unique q with q * rc ≤ rb < (q + 1) * rc (41_alu.md R93). -/
def Obligations.DivWritesTheUnsignedQuotientOrFaults : Prop :=
  (∀ (w : Word) (a b c : Reg), HasOp w 5 → HasA w a → HasB w b → HasC w c →
    decode w = .div a b c) ∧
  (∀ a b c : Reg, (encode (.div a b c)).toNat = 0x50000000 + a.index * 64 + b.index * 8 + c.index) ∧
  (∀ (a b c : Reg) (s : State), s.reg c ≠ 0 →
    ∃ t, exec (.div a b c) s = .next t ∧
      (t.reg a).toNat * (s.reg c).toNat ≤ (s.reg b).toNat ∧
      (s.reg b).toNat < ((t.reg a).toNat + 1) * (s.reg c).toNat ∧ OnlyRegister a s t) ∧
  (∀ (a b c : Reg) (s : State), s.reg c = 0 → Raises (.div a b c) s .divisionByZero)

/-- NAND: bit i of the result is 0 exactly when bit i of both operands is 1 (41_alu.md R94). -/
def Obligations.NandWritesTheComplementOfTheConjunction : Prop :=
  (∀ (w : Word) (a b c : Reg), HasOp w 6 → HasA w a → HasB w b → HasC w c →
    decode w = .nand a b c) ∧
  (∀ a b c : Reg, (encode (.nand a b c)).toNat = 0x60000000 + a.index * 64 + b.index * 8 + c.index) ∧
  (∀ (a b c : Reg) (s : State),
    ∃ t, exec (.nand a b c) s = .next t ∧
      (∀ i, i < 32 →
        ((t.reg a).getLsbD i = false ↔
          ((s.reg b).getLsbD i = true ∧ (s.reg c).getLsbD i = true))) ∧
      OnlyRegister a s t)

/-- LOADIMM: every 25-bit immediate, zero-extended; every bit of the word is used
(41_alu.md R96, 30_encoding.md R67, R69). -/
def Obligations.LoadimmWritesTheZeroExtendedImmediate : Prop :=
  (∀ (w : Word) (A : Reg), HasOp w 13 → (w.extractLsb 27 25).toNat = A.index →
    decode w = .loadimm A (w.extractLsb 24 0).toNat) ∧
  (∀ (A : Reg) (imm : Nat), imm < 2 ^ 25 →
    (encode (.loadimm A imm)).toNat = 0xD0000000 + A.index * 0x02000000 + imm) ∧
  (∀ (A : Reg) (imm : Nat) (s : State), imm < 2 ^ 25 →
    ∃ t, exec (.loadimm A imm) s = .next t ∧ (t.reg A).toNat = imm ∧ OnlyRegister A s t)

/-- SLOAD (42_segment_access.md R100). -/
def Obligations.SloadReadsTheAddressedWordOrFaults : Prop :=
  (∀ (w : Word) (a b c : Reg), HasOp w 1 → HasA w a → HasB w b → HasC w c →
    decode w = .sload a b c) ∧
  (∀ a b c : Reg, (encode (.sload a b c)).toNat = 0x10000000 + a.index * 64 + b.index * 8 + c.index) ∧
  (∀ (a b c : Reg) (s : State) (g : Segment), s.segment (s.reg b).toNat = some g →
    (s.reg c).toNat < g.len →
    ∃ t, exec (.sload a b c) s = .next t ∧ t.reg a = g.wordAt (s.reg c).toNat ∧
      OnlyRegister a s t) ∧
  (∀ (a b c : Reg) (s : State), ¬ InBounds s (s.reg b).toNat (s.reg c).toNat →
    Raises (.sload a b c) s .memoryFault)

/-- SSTORE: the word at offset rb of segment ra becomes rc, and every other word of every segment reads
as before (42_segment_access.md R101). -/
def Obligations.SstoreWritesTheAddressedWordOrFaults : Prop :=
  (∀ (w : Word) (a b c : Reg), HasOp w 2 → HasA w a → HasB w b → HasC w c →
    decode w = .sstore a b c) ∧
  (∀ a b c : Reg,
    (encode (.sstore a b c)).toNat = 0x20000000 + a.index * 64 + b.index * 8 + c.index) ∧
  (∀ (a b c : Reg) (s : State), InBounds s (s.reg a).toNat (s.reg b).toNat →
    ∃ t, exec (.sstore a b c) s = .next t ∧
      memRead (s.reg a).toNat (s.reg b).toNat t = .ok (s.reg c) ∧
      (∀ id off, (id ≠ (s.reg a).toNat ∨ off ≠ (s.reg b).toNat) →
        memRead id off t = memRead id off s) ∧
      (∀ id, segLen id t = segLen id s) ∧
      KeepsRegs s t ∧ KeepsIds s t ∧ KeepsStreams s t ∧ KeepsControl s t ∧ KeepsConfig s t) ∧
  (∀ (a b c : Reg) (s : State), ¬ InBounds s (s.reg a).toNat (s.reg b).toNat →
    Raises (.sstore a b c) s .memoryFault)

/-- HALT: the status becomes Halted, nothing else changes, no step is enabled afterwards, and no other
instruction makes the status Halted (45_control.md R118). -/
def Obligations.HaltStopsTheMachine : Prop :=
  (∀ w : Word, HasOp w 7 → decode w = .halt) ∧
  (encode .halt).toNat = 0x70000000 ∧
  (∀ s : State,
    ∃ t, exec .halt s = .next t ∧ t.status = .halted ∧ t.pc = s.pc ∧ KeepsRegs s t ∧
      KeepsMemory s t ∧ KeepsIds s t ∧ KeepsStreams s t ∧ KeepsConfig s t ∧
      ∀ u, step t ≠ .next u) ∧
  (∀ s t : State, step s = .next t → t.status = .halted →
    ∃ g, s.segment 0 = some g ∧ s.pc.toNat < g.len ∧ decode (g.wordAt s.pc.toNat) = .halt)

/-- MAP: the register of field b gets the id of a new segment of rc zero words; in a state that meets
the invariant the id is exact, never 0 and not the id of a live segment (43_segment_management.md R106). -/
def Obligations.MapBindsAZeroedSegmentOrFaults : Prop :=
  (∀ (w : Word) (b c : Reg), HasOp w 8 → HasB w b → HasC w c → decode w = .map b c) ∧
  (∀ b c : Reg, (encode (.map b c)).toNat = 0x80000000 + b.index * 8 + c.index) ∧
  (∀ (b c : Reg) (s : State), ¬ NoIdLeft s → Fits s (liveWords s + (s.reg c).toNat) →
    ∃ t, exec (.map b c) s = .next t ∧ t.reg b = BitVec.ofNat 32 (nextFresh s) ∧
      (Inv s → (t.reg b).toNat = nextFresh s ∧ nextFresh s ≠ 0 ∧ s.live (nextFresh s) = false) ∧
      segLen (nextFresh s) t = .ok (s.reg c).toNat ∧
      (∀ off, off < (s.reg c).toNat → memRead (nextFresh s) off t = .ok 0) ∧
      (∀ id, id ≠ nextFresh s → t.segment id = s.segment id) ∧
      (∀ id off, id ≠ nextFresh s → memRead id off t = memRead id off s) ∧
      (∀ id rest, s.pool = id :: rest → t.pool = rest ∧ t.nextId = s.nextId) ∧
      (s.pool = [] → t.pool = [] ∧ t.nextId = s.nextId + 1) ∧
      KeepsRegsBut b s t ∧ KeepsStreams s t ∧ KeepsControl s t ∧ KeepsConfig s t) ∧
  (∀ (b c : Reg) (s : State), (NoIdLeft s ∨ ¬ Fits s (liveWords s + (s.reg c).toNat)) →
    Raises (.map b c) s .allocationFailure)

/-- UNMAP: a live id other than 0 is unbound and goes on top of the pool; 0 and an id that is not live
raise MemoryFault (43_segment_management.md R108). -/
def Obligations.UnmapFreesALiveSegmentOrFaults : Prop :=
  (∀ (w : Word) (c : Reg), HasOp w 9 → HasC w c → decode w = .unmap c) ∧
  (∀ c : Reg, (encode (.unmap c)).toNat = 0x90000000 + c.index) ∧
  (∀ (c : Reg) (s : State) (g : Segment), s.reg c ≠ 0 → s.segment (s.reg c).toNat = some g →
    ∃ t, exec (.unmap c) s = .next t ∧ t.segment (s.reg c).toNat = none ∧
      (∀ id, id ≠ (s.reg c).toNat → t.segment id = s.segment id) ∧
      (∀ id off, id ≠ (s.reg c).toNat → memRead id off t = memRead id off s) ∧
      t.pool = (s.reg c).toNat :: s.pool ∧ t.nextId = s.nextId ∧
      KeepsRegs s t ∧ KeepsStreams s t ∧ KeepsControl s t ∧ KeepsConfig s t ∧
      Raises (.unmap c) t .memoryFault) ∧
  (∀ (c : Reg) (s : State), (s.reg c = 0 ∨ s.segment (s.reg c).toNat = none) →
    Raises (.unmap c) s .memoryFault)

/-- OUT: a value up to 255 is emitted as one byte, a larger one raises InvalidOutputValue and emits
nothing (44_io.md R111). -/
def Obligations.OutEmitsOneByteOrFaults : Prop :=
  (∀ (w : Word) (c : Reg), HasOp w 10 → HasC w c → decode w = .out c) ∧
  (∀ c : Reg, (encode (.out c)).toNat = 0xA0000000 + c.index) ∧
  (∀ (c : Reg) (s : State), (s.reg c).toNat ≤ 255 →
    ∃ t b, exec (.out c) s = .next t ∧ t.output = s.output ++ [b] ∧ b.toNat = (s.reg c).toNat ∧
      t.input = s.input ∧ KeepsRegs s t ∧ KeepsMemory s t ∧ KeepsIds s t ∧ KeepsControl s t ∧
      KeepsConfig s t) ∧
  (∀ (c : Reg) (s : State), 255 < (s.reg c).toNat → Raises (.out c) s .invalidOutputValue)

/-- IN: the next byte, zero-extended, or all ones at end of stream, which stays reached
(44_io.md R113). -/
def Obligations.InReadsOneByteOrTheEndOfStream : Prop :=
  (∀ (w : Word) (c : Reg), HasOp w 11 → HasC w c → decode w = .inp c) ∧
  (∀ c : Reg, (encode (.inp c)).toNat = 0xB0000000 + c.index) ∧
  (∀ (c : Reg) (s : State) (b : Byte) (rest : List Byte), s.input = b :: rest →
    ∃ t, exec (.inp c) s = .next t ∧ (t.reg c).toNat = b.toNat ∧ t.input = rest ∧
      t.output = s.output ∧ KeepsRegsBut c s t ∧ KeepsMemory s t ∧ KeepsIds s t ∧
      KeepsControl s t ∧ KeepsConfig s t) ∧
  (∀ (c : Reg) (s : State), s.input = [] →
    ∃ t, exec (.inp c) s = .next t ∧ (t.reg c).toNat = 0xFFFFFFFF ∧ OnlyRegister c s t)

/-- LOADPROG: pc becomes rc, unchecked; with a non-zero live rb segment 0 becomes a copy of segment rb;
with rb = 0 nothing but pc changes (45_control.md R119). -/
def Obligations.LoadprogJumpsAndReplacesTheProgramOrFaults : Prop :=
  (∀ (w : Word) (b c : Reg), HasOp w 12 → HasB w b → HasC w c → decode w = .loadprog b c) ∧
  (∀ b c : Reg, (encode (.loadprog b c)).toNat = 0xC0000000 + b.index * 8 + c.index) ∧
  (∀ (b c : Reg) (s : State), s.reg b = 0 →
    ∃ t, exec (.loadprog b c) s = .next t ∧ t.pc = s.reg c ∧ t.status = s.status ∧ KeepsRegs s t ∧
      KeepsMemory s t ∧ KeepsIds s t ∧ KeepsStreams s t ∧ KeepsConfig s t) ∧
  (∀ (b c : Reg) (s : State) (g : Segment), s.reg b ≠ 0 → s.segment (s.reg b).toNat = some g →
    Fits s (liveWords s - zeroLen s + g.len) →
    ∃ t, exec (.loadprog b c) s = .next t ∧ t.pc = s.reg c ∧ t.status = s.status ∧
      t.segment 0 = some g ∧ (∀ off, memRead 0 off t = memRead (s.reg b).toNat off s) ∧
      (∀ id, id ≠ 0 → t.segment id = s.segment id) ∧
      (∀ id off, id ≠ 0 → memRead id off t = memRead id off s) ∧
      KeepsRegs s t ∧ KeepsIds s t ∧ KeepsStreams s t ∧ KeepsConfig s t) ∧
  (∀ (b c : Reg) (s : State), s.reg b ≠ 0 → s.segment (s.reg b).toNat = none →
    Raises (.loadprog b c) s .memoryFault) ∧
  (∀ (b c : Reg) (s : State) (g : Segment), s.reg b ≠ 0 → s.segment (s.reg b).toNat = some g →
    ¬ Fits s (liveWords s - zeroLen s + g.len) → Raises (.loadprog b c) s .allocationFailure)

/-- The illegal opcodes: every word from 0xE0000000 up raises InvalidOpcode when executed, whatever its
other bits, with pc past the word and nothing else changed (40_cycle.md R85, 30_encoding.md R73). -/
def Obligations.IllegalOpcodesRaiseInvalidOpcode : Prop :=
  (∀ s : State, Raises .illegal14 s .invalidOpcode ∧ Raises .illegal15 s .invalidOpcode) ∧
  (∀ (w : Word), HasOp w 14 → decode w = .illegal14) ∧
  (∀ (w : Word), HasOp w 15 → decode w = .illegal15) ∧
  (∀ (s : State) (g : Segment), s.status = .running → s.segment 0 = some g → s.pc.toNat < g.len →
    0xE0000000 ≤ (g.wordAt s.pc.toNat).toNat →
    step s = .next { s with pc := s.pc + 1, status := .faulted .invalidOpcode })
end

