-- ==== Sys2Proof/Laws/Encoding.lean ====
section
/-! SUPPORT. Fields of words, and the words the encoder writes. -/

namespace Sys2Proof

theorem field_lt (w : Word) (hi lo : Nat) : field w hi lo < 2 ^ (hi - lo + 1) :=
  Nat.mod_lt _ (Nat.two_pow_pos _)

theorem Reg.index_lt (r : Reg) : r.index < 8 := by cases r <;> decide

@[simp] theorem Reg.ofIndex_index (r : Reg) : Reg.ofIndex r.index = r := by cases r <;> rfl

theorem Reg.index_ofIndex {n : Nat} (h : n < 8) : (Reg.ofIndex n).index = n := by
  match n, h with
  | 0, _ | 1, _ | 2, _ | 3, _ | 4, _ | 5, _ | 6, _ | 7, _ => rfl

theorem Reg.index_inj {r q : Reg} (h : r.index = q.index) : r = q := by
  rw [← Reg.ofIndex_index r, h, Reg.ofIndex_index]

theorem regA_index (w : Word) : (regA w).index = field w 8 6 :=
  Reg.index_ofIndex (field_lt w 8 6)

theorem regB_index (w : Word) : (regB w).index = field w 5 3 :=
  Reg.index_ofIndex (field_lt w 5 3)

theorem regC_index (w : Word) : (regC w).index = field w 2 0 :=
  Reg.index_ofIndex (field_lt w 2 0)

theorem regImm_index (w : Word) : (regImm w).index = field w 27 25 :=
  Reg.index_ofIndex (field_lt w 27 25)

theorem threeRegisterWord_toNat {op a b c : Nat} (ho : op < 16) (ha : a < 8) (hb : b < 8) (hc : c < 8) :
    (threeRegisterWord op a b c).toNat = op * 2 ^ 28 + a * 64 + b * 8 + c := by
  simp only [threeRegisterWord, BitVec.toNat_ofNat]
  omega

theorem immediateWord_toNat {A imm : Nat} (hA : A < 8) :
    (immediateWord A imm).toNat = 13 * 2 ^ 28 + A * 2 ^ 25 + imm % 2 ^ 25 := by
  simp only [immediateWord, immLimit, BitVec.toNat_ofNat]
  omega

theorem opField_threeRegisterWord {op a b c : Nat} (ho : op < 16) (ha : a < 8) (hb : b < 8)
    (hc : c < 8) : opField (threeRegisterWord op a b c) = op := by
  simp only [opField, field, threeRegisterWord_toNat ho ha hb hc]
  omega

theorem regA_threeRegisterWord {op : Nat} (ho : op < 16) (a : Reg) {b c : Nat} (hb : b < 8)
    (hc : c < 8) : regA (threeRegisterWord op a.index b c) = a := by
  apply Reg.index_inj
  have ha := a.index_lt
  rw [regA_index, field, threeRegisterWord_toNat ho ha hb hc]
  omega

theorem regB_threeRegisterWord {op : Nat} (ho : op < 16) {a : Nat} (b : Reg) {c : Nat} (ha : a < 8)
    (hc : c < 8) : regB (threeRegisterWord op a b.index c) = b := by
  apply Reg.index_inj
  have hb := b.index_lt
  rw [regB_index, field, threeRegisterWord_toNat ho ha hb hc]
  omega

theorem regC_threeRegisterWord {op : Nat} (ho : op < 16) {a b : Nat} (c : Reg) (ha : a < 8)
    (hb : b < 8) : regC (threeRegisterWord op a b c.index) = c := by
  apply Reg.index_inj
  have hc := c.index_lt
  rw [regC_index, field, threeRegisterWord_toNat ho ha hb hc]
  omega

theorem opField_immediateWord (A : Reg) (imm : Nat) : opField (immediateWord A.index imm) = 13 := by
  have hA := A.index_lt
  rw [opField, field, immediateWord_toNat hA]
  omega

theorem regImm_immediateWord (A : Reg) (imm : Nat) : regImm (immediateWord A.index imm) = A := by
  apply Reg.index_inj
  have hA := A.index_lt
  rw [regImm_index, field, immediateWord_toNat hA]
  omega

theorem immField_immediateWord (A : Reg) (imm : Nat) :
    immField (immediateWord A.index imm) = imm % 2 ^ 25 := by
  have hA := A.index_lt
  rw [immField, field, immediateWord_toNat hA]
  omega

theorem Instr.opcode_lt (i : Instr) : i.opcode < 16 := by cases i <;> simp [Instr.opcode]

/-- `w[hi:lo]` is the bit slice of the word. -/
theorem field_eq_extractLsb (w : Word) (hi lo : Nat) : field w hi lo = (w.extractLsb hi lo).toNat := by
  simp [BitVec.extractLsb, field, Nat.shiftRight_eq_div_pow]

/-! ### What a word of each opcode decodes to -/

theorem decode_cmov {w : Word} (h : opField w = 0) : decode w = .cmov (regA w) (regB w) (regC w) := by
  rw [decode, h]; rfl
theorem decode_sload {w : Word} (h : opField w = 1) : decode w = .sload (regA w) (regB w) (regC w) := by
  rw [decode, h]; rfl
theorem decode_sstore {w : Word} (h : opField w = 2) : decode w = .sstore (regA w) (regB w) (regC w) := by
  rw [decode, h]; rfl
theorem decode_add {w : Word} (h : opField w = 3) : decode w = .add (regA w) (regB w) (regC w) := by
  rw [decode, h]; rfl
theorem decode_mul {w : Word} (h : opField w = 4) : decode w = .mul (regA w) (regB w) (regC w) := by
  rw [decode, h]; rfl
theorem decode_div {w : Word} (h : opField w = 5) : decode w = .div (regA w) (regB w) (regC w) := by
  rw [decode, h]; rfl
theorem decode_nand {w : Word} (h : opField w = 6) : decode w = .nand (regA w) (regB w) (regC w) := by
  rw [decode, h]; rfl
theorem decode_halt {w : Word} (h : opField w = 7) : decode w = .halt := by
  rw [decode, h]; rfl
theorem decode_map {w : Word} (h : opField w = 8) : decode w = .map (regB w) (regC w) := by
  rw [decode, h]; rfl
theorem decode_unmap {w : Word} (h : opField w = 9) : decode w = .unmap (regC w) := by
  rw [decode, h]; rfl
theorem decode_out {w : Word} (h : opField w = 10) : decode w = .out (regC w) := by
  rw [decode, h]; rfl
theorem decode_inp {w : Word} (h : opField w = 11) : decode w = .inp (regC w) := by
  rw [decode, h]; rfl
theorem decode_loadprog {w : Word} (h : opField w = 12) : decode w = .loadprog (regB w) (regC w) := by
  rw [decode, h]; rfl
theorem decode_loadimm {w : Word} (h : opField w = 13) : decode w = .loadimm (regImm w) (immField w) := by
  rw [decode, h]; rfl
theorem decode_illegal14 {w : Word} (h : opField w = 14) : decode w = .illegal14 := by
  rw [decode, h]; rfl
theorem decode_illegal15 {w : Word} (h : opField w = 15) : decode w = .illegal15 := by
  rw [decode, h]; rfl

theorem opField_lt (w : Word) : opField w < 16 := field_lt w 31 28

/-- The decoder keeps the opcode field. -/
theorem opcode_decode (w : Word) : (decode w).opcode = opField w := by
  have h := opField_lt w
  simp only [decode]
  split <;> simp_all [Instr.opcode]
  omega

end Sys2Proof
end

