-- ==== Sys2Proof/Laws/Table.lean ====
section
/-! SUPPORT. Tables: reading after binding and unbinding (of any table, sorted or not), and the rising
order of keys. -/

namespace Sys2Proof.Machine

variable {α : Type}

@[simp] theorem Table.find_put_self (t : List (Nat × α)) (i : Nat) (v : α) :
    Table.find (Table.put t i v) i = some v := by
  induction t with
  | nil => simp [Table.put, Table.find]
  | cons p t ih =>
    obtain ⟨k, w⟩ := p
    simp only [Table.put]
    split
    · simp [Table.find]
    · split
      · simp [Table.find]
      · rename_i h1 h2
        simp [Table.find, Ne.symm h2, ih]

theorem Table.find_put_ne (t : List (Nat × α)) {i j : Nat} (v : α) (h : j ≠ i) :
    Table.find (Table.put t i v) j = Table.find t j := by
  induction t with
  | nil => simp [Table.put, Table.find, h.symm]
  | cons p t ih =>
    obtain ⟨k, w⟩ := p
    simp only [Table.put]
    split
    · simp [Table.find, h.symm]
    · split
      · rename_i h1 h2
        subst h2
        simp [Table.find, h.symm]
      · simp [Table.find, ih]

theorem Table.find_put (t : List (Nat × α)) (i j : Nat) (v : α) :
    Table.find (Table.put t i v) j = if j = i then some v else Table.find t j := by
  split
  · subst_vars; simp
  · exact Table.find_put_ne t v ‹_›

theorem Table.find_erase (t : List (Nat × α)) (i j : Nat) :
    Table.find (Table.erase t i) j = if j = i then none else Table.find t j := by
  induction t with
  | nil => simp [Table.erase, Table.find]
  | cons p t ih =>
    obtain ⟨k, w⟩ := p
    simp only [Table.erase, List.filter_cons, bne_iff_ne, ne_eq] at ih ⊢
    by_cases hk : k = i
    · subst hk
      simp only [not_true_eq_false, if_false, ih, Table.find]
      by_cases hj : j = k
      · simp [hj]
      · simp [hj, Ne.symm hj]
    · simp only [hk, not_false_eq_true, if_true, Table.find, ih]
      by_cases hj : j = i
      · subst hj; simp [hk]
      · simp [hj]

theorem Table.mem_of_find {t : List (Nat × α)} {i : Nat} {v : α} (h : Table.find t i = some v) :
    (i, v) ∈ t := by
  induction t with
  | nil => simp [Table.find] at h
  | cons p t ih =>
    obtain ⟨k, w⟩ := p
    simp only [Table.find] at h
    split at h
    · cases h; subst_vars; simp
    · exact List.mem_cons_of_mem _ (ih h)

theorem Table.find_of_mem {t : List (Nat × α)} (hr : Table.Rising t) {i : Nat} {v : α}
    (h : (i, v) ∈ t) : Table.find t i = some v := by
  induction t with
  | nil => simp at h
  | cons p t ih =>
    obtain ⟨k, w⟩ := p
    simp only [Table.Rising, List.map_cons, List.pairwise_cons] at hr
    rcases List.mem_cons.mp h with h | h
    · cases h; simp [Table.find]
    · have : k < i := hr.1 i (List.mem_map_of_mem (f := Prod.fst) h)
      simp [Table.find, Nat.ne_of_lt this, ih hr.2 h]

theorem Table.mem_put {t : List (Nat × α)} {i : Nat} {v : α} {p : Nat × α}
    (h : p ∈ Table.put t i v) : p = (i, v) ∨ p ∈ t := by
  induction t with
  | nil => simpa [Table.put] using h
  | cons q t ih =>
    obtain ⟨k, w⟩ := q
    simp only [Table.put] at h
    split at h
    · simpa using h
    · split at h
      · rcases List.mem_cons.mp h with h | h
        · exact .inl h
        · exact .inr (List.mem_cons_of_mem _ h)
      · rcases List.mem_cons.mp h with h | h
        · exact .inr (h ▸ List.mem_cons_self)
        · exact (ih h).imp_right (List.mem_cons_of_mem _)

theorem Table.mem_erase {t : List (Nat × α)} {i : Nat} {p : Nat × α}
    (h : p ∈ Table.erase t i) : p ∈ t := (List.mem_filter.mp h).1

theorem Table.rising_erase {t : List (Nat × α)} (hr : Table.Rising t) (i : Nat) :
    Table.Rising (Table.erase t i) :=
  hr.sublist (List.filter_sublist.map Prod.fst)

theorem Table.rising_put {t : List (Nat × α)} (hr : Table.Rising t) (i : Nat) (v : α) :
    Table.Rising (Table.put t i v) := by
  induction t with
  | nil => simp [Table.put, Table.Rising]
  | cons q t ih =>
    obtain ⟨k, w⟩ := q
    have hr' := hr
    simp only [Table.Rising, List.map_cons, List.pairwise_cons] at hr
    simp only [Table.put]
    split
    · rename_i hik
      simp only [Table.Rising, List.map_cons, List.pairwise_cons, List.mem_cons]
      refine ⟨?_, hr⟩
      rintro a (rfl | ha)
      · exact hik
      · exact Nat.lt_trans hik (hr.1 a ha)
    · split
      · subst_vars
        simpa [Table.Rising] using hr
      · rename_i h1 h2
        simp only [Table.Rising, List.map_cons, List.pairwise_cons]
        refine ⟨?_, ih hr.2⟩
        intro a ha
        obtain ⟨p, hp, rfl⟩ := List.mem_map.mp ha
        rcases Table.mem_put hp with rfl | hp
        · simp only; omega
        · exact hr.1 _ (List.mem_map_of_mem (f := Prod.fst) hp)

/-! ### The words live in a memory -/

@[simp] theorem wordsLive_nil : wordsLive [] = 0 := rfl

@[simp] theorem wordsLive_cons (p : Nat × Segment) (m : Memory) :
    wordsLive (p :: m) = p.2.len + wordsLive m := by
  simp [wordsLive]

/-- The length of the segment an id is bound to, 0 if it is bound to none. -/
def boundLen (m : Memory) (id : Nat) : Nat := ((Table.find m id).map Segment.len).getD 0

theorem find_none_of_lt {m : Memory} {k id : Nat} {g : Segment} (hr : Table.Rising ((k, g) :: m))
    (h : id < k) : Table.find ((k, g) :: m) id = none := by
  simp only [Table.Rising, List.map_cons, List.pairwise_cons] at hr
  cases hf : Table.find ((k, g) :: m) id with
  | none => rfl
  | some v =>
    rcases List.mem_cons.mp (Table.mem_of_find hf) with he | he
    · cases he; omega
    · have := hr.1 id (List.mem_map_of_mem (f := Prod.fst) he)
      omega

/-- Binding an id exchanges the words it was bound to for the new ones. -/
theorem wordsLive_put {m : Memory} (hr : Table.Rising m) (id : Nat) (g : Segment) :
    wordsLive (Table.put m id g) + boundLen m id = wordsLive m + g.len := by
  induction m with
  | nil => simp [Table.put, boundLen, Table.find]
  | cons p m ih =>
    obtain ⟨k, h⟩ := p
    have hr' := hr
    simp only [Table.Rising, List.map_cons, List.pairwise_cons] at hr
    simp only [Table.put]
    split
    · rename_i hlt
      simp only [wordsLive_cons, boundLen, find_none_of_lt hr' hlt]
      simp; omega
    · split
      · subst_vars
        simp [boundLen, Table.find]; omega
      · rename_i h1 h2
        have := ih hr.2
        simp only [boundLen, Table.find, Ne.symm h2, if_false, wordsLive_cons] at this ⊢
        omega

theorem wordsLive_erase_le (m : Memory) (id : Nat) : wordsLive (Table.erase m id) ≤ wordsLive m := by
  induction m with
  | nil => simp [Table.erase]
  | cons p m ih =>
    simp only [Table.erase, List.filter_cons] at ih ⊢
    split
    · simp only [wordsLive_cons]; omega
    · simp only [wordsLive_cons]; omega

theorem boundLen_le {m : Memory} (id : Nat) : boundLen m id ≤ wordsLive m := by
  induction m with
  | nil => simp [boundLen, Table.find]
  | cons p m ih =>
    obtain ⟨k, h⟩ := p
    simp only [boundLen, Table.find, wordsLive_cons] at ih ⊢
    split
    · simp
    · omega

end Sys2Proof.Machine
end

