-- ==== Sys2Proof/Laws/Memory.lean ====
section
/-! SUPPORT. Segments and memory: reading a word after writing one, and the canonical form, which every
memory operation keeps. -/

namespace Sys2Proof.Machine

@[simp] theorem Segment.store_len (g : Segment) (off : Nat) (v : Word) : (g.store off v).len = g.len := rfl

@[simp] theorem Segment.zeros_len (size : Nat) : (Segment.zeros size).len = size := rfl

@[simp] theorem Segment.zeros_wordAt (size off : Nat) : (Segment.zeros size).wordAt off = 0 := rfl

theorem Segment.wordAt_store (g : Segment) (off o : Nat) (v : Word) :
    (g.store off v).wordAt o = if o = off then v else g.wordAt o := by
  simp only [Segment.wordAt, Segment.store]
  by_cases hv : v = unlistedWord
  · subst hv
    rw [if_pos rfl, Table.find_erase]
    split <;> rfl
  · rw [if_neg hv, Table.find_put]
    split <;> rfl

theorem Segment.wf_zeros {size : Nat} (h : size < 2 ^ 32) : (Segment.zeros size).wf :=
  ⟨by simp [Segment.zeros, Table.Rising], by simp [Segment.zeros], h⟩

theorem Segment.wf_store {g : Segment} (hg : g.wf) {off : Nat} (h : off < g.len) (v : Word) :
    (g.store off v).wf := by
  obtain ⟨hr, hc, hl⟩ := hg
  refine ⟨?_, ?_, hl⟩
  · simp only [Segment.store]
    split
    · exact Table.rising_erase hr off
    · exact Table.rising_put hr off v
  · intro p hp
    simp only [Segment.store] at hp ⊢
    split at hp
    · exact hc p (Table.mem_erase hp)
    · rcases Table.mem_put hp with rfl | hp
      · exact ⟨h, ‹_›⟩
      · exact hc p hp

theorem Memory.wf_put {m : Memory} (hm : Memory.wf m) {id : Nat} (hid : id < 2 ^ 32) {g : Segment}
    (hg : g.wf) : Memory.wf (Table.put m id g) :=
  ⟨Table.rising_put hm.1 id g, fun p hp => by
    rcases Table.mem_put hp with rfl | hp
    · exact ⟨hid, hg⟩
    · exact hm.2 p hp⟩

theorem Memory.wf_erase {m : Memory} (hm : Memory.wf m) (id : Nat) : Memory.wf (Table.erase m id) :=
  ⟨Table.rising_erase hm.1 id, fun p hp => hm.2 p (Table.mem_erase hp)⟩

/-- A segment found in a canonical memory is canonical and its id is below 2^32. -/
theorem Memory.wf_find {m : Memory} (hm : Memory.wf m) {id : Nat} {g : Segment}
    (h : Table.find m id = some g) : id < 2 ^ 32 ∧ g.wf :=
  hm.2 _ (Table.mem_of_find h)

/-! ### Segments made from a sequence of words -/

theorem cellsFrom_ge (ws : List Word) (k : Nat) : ∀ p ∈ cellsFrom k ws, k ≤ p.1 := by
  induction ws generalizing k with
  | nil => simp [cellsFrom]
  | cons w ws ih =>
    intro p hp
    simp only [cellsFrom] at hp
    split at hp
    · have := ih (k + 1) p hp; omega
    · rcases List.mem_cons.mp hp with rfl | hp
      · exact Nat.le_refl _
      · have := ih (k + 1) p hp; omega

theorem cellsFrom_find (ws : List Word) (k j : Nat) (hj : j < ws.length) :
    (Table.find (cellsFrom k ws) (k + j)).getD unlistedWord = ws[j] := by
  induction ws generalizing k j with
  | nil => simp at hj
  | cons w ws ih =>
    have hnone : Table.find (cellsFrom (k + 1) ws) k = none := by
      cases hf : Table.find (cellsFrom (k + 1) ws) k with
      | none => rfl
      | some v =>
        have h := cellsFrom_ge ws (k + 1) _ (Table.mem_of_find hf)
        exact absurd h (by simp)
    cases j with
    | zero =>
      simp only [cellsFrom]
      split
      · simp_all
      · simp [Table.find]
    | succ j =>
      have := ih (k + 1) j (by simpa using hj)
      simp only [cellsFrom]
      rw [show k + (j + 1) = k + 1 + j by omega]
      split
      · simpa using this
      · have hne : k ≠ k + 1 + j := by omega
        simpa [Table.find, hne] using this

theorem cellsFrom_rising (ws : List Word) (k : Nat) : Table.Rising (cellsFrom k ws) := by
  induction ws generalizing k with
  | nil => simp [cellsFrom, Table.Rising]
  | cons w ws ih =>
    simp only [cellsFrom]
    split
    · exact ih (k + 1)
    · simp only [Table.Rising, List.map_cons, List.pairwise_cons]
      refine ⟨?_, ih (k + 1)⟩
      intro a ha
      obtain ⟨p, hp, rfl⟩ := List.mem_map.mp ha
      exact cellsFrom_ge ws (k + 1) p hp

theorem cellsFrom_cells (ws : List Word) (k : Nat) :
    ∀ p ∈ cellsFrom k ws, p.1 < k + ws.length ∧ p.2 ≠ unlistedWord := by
  induction ws generalizing k with
  | nil => simp [cellsFrom]
  | cons w ws ih =>
    intro p hp
    simp only [cellsFrom] at hp
    simp only [List.length_cons]
    split at hp
    · have := ih (k + 1) p hp; exact ⟨by omega, this.2⟩
    · rcases List.mem_cons.mp hp with rfl | hp
      · exact ⟨by simp only; omega, ‹_›⟩
      · have := ih (k + 1) p hp; exact ⟨by omega, this.2⟩

@[simp] theorem Segment.ofWords_len (ws : List Word) : (Segment.ofWords ws).len = ws.length := rfl

/-- The segment made from a sequence of words holds that sequence. -/
theorem Segment.ofWords_wordAt (ws : List Word) (j : Nat) (hj : j < ws.length) :
    (Segment.ofWords ws).wordAt j = ws[j] := by
  have := cellsFrom_find ws 0 j hj
  simpa [Segment.wordAt, Segment.ofWords] using this

theorem Segment.wf_ofWords {ws : List Word} (h : ws.length < 2 ^ 32) : (Segment.ofWords ws).wf :=
  ⟨cellsFrom_rising ws 0, fun p hp => by
    have := cellsFrom_cells ws 0 p hp
    exact ⟨by simpa [Segment.ofWords] using this.1, this.2⟩, h⟩

end Sys2Proof.Machine
end

