-- ==== Sys2Proof/Laws/State.lean ====
section
/-! SUPPORT. The field of a state after each kind of update, and reading a register after writing one. -/

namespace Sys2Proof.Machine

@[simp] theorem Regs.get_set_self (x : Regs) (i : Reg) (v : Word) : (x.set i v).get i = v := by
  cases i <;> rfl

theorem Regs.get_set_ne (x : Regs) {i j : Reg} (v : Word) (h : j ≠ i) :
    (x.set i v).get j = x.get j := by
  cases i <;> cases j <;> first | rfl | exact absurd rfl h

theorem Regs.ext_get {x y : Regs} (h : ∀ i, x.get i = y.get i) : x = y := by
  cases x; cases y
  have h0 := h .r0; have h1 := h .r1; have h2 := h .r2; have h3 := h .r3
  have h4 := h .r4; have h5 := h .r5; have h6 := h .r6; have h7 := h .r7
  simp only [Regs.get] at h0 h1 h2 h3 h4 h5 h6 h7
  simp [*]

theorem Regs.set_comm (x : Regs) {i j : Reg} (v w : Word) (h : i ≠ j) :
    (x.set i v).set j w = (x.set j w).set i v := by
  cases i <;> cases j <;> first | rfl | exact absurd rfl h

theorem Regs.set_set (x : Regs) (i : Reg) (v w : Word) : (x.set i v).set i w = x.set i w := by
  cases i <;> rfl

@[simp] theorem State.setReg_reg_self (s : State) (i : Reg) (v : Word) : (s.setReg i v).reg i = v :=
  Regs.get_set_self _ _ _

theorem State.setReg_reg_ne (s : State) {i j : Reg} (v : Word) (h : j ≠ i) :
    (s.setReg i v).reg j = s.reg j := Regs.get_set_ne _ _ h

@[simp] theorem State.setReg_pc (s : State) (i : Reg) (v : Word) : (s.setReg i v).pc = s.pc := rfl
@[simp] theorem State.setReg_status (s : State) (i : Reg) (v : Word) :
    (s.setReg i v).status = s.status := rfl
@[simp] theorem State.setReg_seg (s : State) (i : Reg) (v : Word) : (s.setReg i v).seg = s.seg := rfl
@[simp] theorem State.setReg_pool (s : State) (i : Reg) (v : Word) : (s.setReg i v).pool = s.pool := rfl
@[simp] theorem State.setReg_nextId (s : State) (i : Reg) (v : Word) :
    (s.setReg i v).nextId = s.nextId := rfl
@[simp] theorem State.setReg_input (s : State) (i : Reg) (v : Word) :
    (s.setReg i v).input = s.input := rfl
@[simp] theorem State.setReg_output (s : State) (i : Reg) (v : Word) :
    (s.setReg i v).output = s.output := rfl
@[simp] theorem State.setReg_config (s : State) (i : Reg) (v : Word) :
    (s.setReg i v).config = s.config := rfl
@[simp] theorem State.setReg_segment (s : State) (i : Reg) (v : Word) (id : Nat) :
    (s.setReg i v).segment id = s.segment id := rfl
@[simp] theorem State.setReg_live (s : State) (i : Reg) (v : Word) (id : Nat) :
    (s.setReg i v).live id = s.live id := rfl

@[simp] theorem advance_regs (s : State) : (advance s).regs = s.regs := rfl
@[simp] theorem advance_reg (s : State) (i : Reg) : (advance s).reg i = s.reg i := rfl
@[simp] theorem advance_pc (s : State) : (advance s).pc = s.pc + 1 := rfl
@[simp] theorem advance_status (s : State) : (advance s).status = s.status := rfl
@[simp] theorem advance_seg (s : State) : (advance s).seg = s.seg := rfl
@[simp] theorem advance_pool (s : State) : (advance s).pool = s.pool := rfl
@[simp] theorem advance_nextId (s : State) : (advance s).nextId = s.nextId := rfl
@[simp] theorem advance_input (s : State) : (advance s).input = s.input := rfl
@[simp] theorem advance_output (s : State) : (advance s).output = s.output := rfl
@[simp] theorem advance_config (s : State) : (advance s).config = s.config := rfl
@[simp] theorem advance_segment (s : State) (id : Nat) : (advance s).segment id = s.segment id := rfl
@[simp] theorem advance_live (s : State) (id : Nat) : (advance s).live id = s.live id := rfl

@[simp] theorem outByte_regs (b : Byte) (s : State) : (outByte b s).regs = s.regs := rfl
@[simp] theorem outByte_pc (b : Byte) (s : State) : (outByte b s).pc = s.pc := rfl
@[simp] theorem outByte_status (b : Byte) (s : State) : (outByte b s).status = s.status := rfl
@[simp] theorem outByte_seg (b : Byte) (s : State) : (outByte b s).seg = s.seg := rfl
@[simp] theorem outByte_pool (b : Byte) (s : State) : (outByte b s).pool = s.pool := rfl
@[simp] theorem outByte_nextId (b : Byte) (s : State) : (outByte b s).nextId = s.nextId := rfl
@[simp] theorem outByte_input (b : Byte) (s : State) : (outByte b s).input = s.input := rfl
@[simp] theorem outByte_output (b : Byte) (s : State) : (outByte b s).output = s.output ++ [b] := rfl
@[simp] theorem outByte_config (b : Byte) (s : State) : (outByte b s).config = s.config := rfl

@[simp] theorem State.withFetchWord_pc (s : State) (nbits w : Nat) :
    (s.withFetchWord nbits w).pc = s.pc := rfl
@[simp] theorem State.withFetchWord_status (s : State) (nbits w : Nat) :
    (s.withFetchWord nbits w).status = .running := rfl
@[simp] theorem State.withFetchWord_reg (s : State) (nbits w : Nat) (i : Reg) :
    (s.withFetchWord nbits w).reg i = s.reg i := rfl

end Sys2Proof.Machine
end

