-- ==== Sys2Proof/Laws/Ops.lean ====
section
/-! SUPPORT. One lemma per shared operation and outcome: everything the operation can do. -/

namespace Sys2Proof.Machine

theorem alloc_ok {size : Nat} {s t : State} {id : Nat} (h : alloc size s = .ok (id, t)) :
    withinCapacity s.config (wordsLive s.seg + size) = true ∧
    ((∃ rest, s.pool = id :: rest ∧
        t = { s with pool := rest, seg := Table.put s.seg id (Segment.zeros size) }) ∨
     (s.pool = [] ∧ s.nextId ≠ idLimit ∧ id = s.nextId ∧
        t = { s with nextId := s.nextId + 1, seg := Table.put s.seg s.nextId (Segment.zeros size) })) := by
  unfold alloc at h
  split at h
  · cases h
  · rename_i hid
    split at h
    · cases h
    · rename_i hcap
      refine ⟨by simpa using hcap, ?_⟩
      split at h
      · rename_i i rest hp
        cases h
        exact .inl ⟨rest, hp, rfl⟩
      · rename_i hp
        cases h
        exact .inr ⟨hp, fun hn => hid ⟨hp, hn⟩, rfl, rfl⟩

theorem alloc_error {size : Nat} {s : State} {k : FaultKind} (h : alloc size s = .error k) :
    k = .allocationFailure ∧
    ((s.pool = [] ∧ s.nextId = idLimit) ∨
      withinCapacity s.config (wordsLive s.seg + size) = false) := by
  unfold alloc at h
  split at h
  · cases h; exact ⟨rfl, .inl ‹_›⟩
  · split at h
    · cases h; exact ⟨rfl, .inr (by simp_all)⟩
    · split at h <;> cases h

theorem alloc_pool {size : Nat} {s : State} {id : Nat} {rest : List Nat} (hp : s.pool = id :: rest)
    (hc : withinCapacity s.config (wordsLive s.seg + size) = true) :
    alloc size s =
      .ok (id, { s with pool := rest, seg := Table.put s.seg id (Segment.zeros size) }) := by
  simp [alloc, hp, hc]

theorem alloc_mint {size : Nat} {s : State} (hp : s.pool = []) (hn : s.nextId ≠ idLimit)
    (hc : withinCapacity s.config (wordsLive s.seg + size) = true) :
    alloc size s = .ok (s.nextId, { s with nextId := s.nextId + 1,
                                           seg := Table.put s.seg s.nextId (Segment.zeros size) }) := by
  simp [alloc, hp, hc, hn]

theorem alloc_fails {size : Nat} {s : State}
    (h : (s.pool = [] ∧ s.nextId = idLimit) ∨
      withinCapacity s.config (wordsLive s.seg + size) = false) :
    alloc size s = .error .allocationFailure := by
  unfold alloc
  split
  · rfl
  · rcases h with h | h
    · contradiction
    · simp [h]

theorem free_ok {id : Nat} {s t : State} (h : free id s = .ok t) :
    s.live id = true ∧ t = { s with seg := Table.erase s.seg id, pool := id :: s.pool } := by
  unfold free at h
  split at h
  · cases h; exact ⟨‹_›, rfl⟩
  · cases h

theorem free_error {id : Nat} {s : State} {k : FaultKind} (h : free id s = .error k) :
    k = .memoryFault ∧ s.live id = false := by
  unfold free at h
  split at h
  · cases h
  · cases h; exact ⟨rfl, by simp_all⟩

theorem free_live {id : Nat} {s : State} (h : s.live id = true) :
    free id s = .ok { s with seg := Table.erase s.seg id, pool := id :: s.pool } := if_pos h

theorem free_not_live {id : Nat} {s : State} (h : s.live id = false) :
    free id s = .error .memoryFault := if_neg (by simp [h])

theorem memRead_ok {id off : Nat} {s : State} {v : Word} (h : memRead id off s = .ok v) :
    ∃ g, s.segment id = some g ∧ off < g.len ∧ v = g.wordAt off := by
  unfold memRead at h
  split at h
  · cases h
  · rename_i g hg
    split at h
    · cases h
    · cases h; exact ⟨g, hg, by omega, rfl⟩

theorem memRead_error {id off : Nat} {s : State} {k : FaultKind} (h : memRead id off s = .error k) :
    k = .memoryFault ∧ ∀ g, s.segment id = some g → g.len ≤ off := by
  unfold memRead at h
  split at h
  · cases h; exact ⟨rfl, by simp_all⟩
  · rename_i g hg
    split at h
    · cases h; exact ⟨rfl, by simp_all⟩
    · cases h

theorem memRead_some {id off : Nat} {s : State} {g : Segment} (hg : s.segment id = some g)
    (h : off < g.len) : memRead id off s = .ok (g.wordAt off) := by
  simp [memRead, hg, Nat.not_le.mpr h]

theorem memRead_fails {id off : Nat} {s : State} (h : ∀ g, s.segment id = some g → g.len ≤ off) :
    memRead id off s = .error .memoryFault := by
  unfold memRead
  split
  · rfl
  · simp [h _ ‹_›]

theorem memWrite_ok {id off : Nat} {v : Word} {s t : State} (h : memWrite id off v s = .ok t) :
    ∃ g, s.segment id = some g ∧ off < g.len ∧
      t = { s with seg := Table.put s.seg id (g.store off v) } := by
  unfold memWrite at h
  split at h
  · cases h
  · rename_i g hg
    split at h
    · cases h
    · cases h; exact ⟨g, hg, by omega, rfl⟩

theorem memWrite_error {id off : Nat} {v : Word} {s : State} {k : FaultKind}
    (h : memWrite id off v s = .error k) :
    k = .memoryFault ∧ ∀ g, s.segment id = some g → g.len ≤ off := by
  unfold memWrite at h
  split at h
  · cases h; exact ⟨rfl, by simp_all⟩
  · split at h
    · cases h; exact ⟨rfl, by simp_all⟩
    · cases h

theorem memWrite_some {id off : Nat} {v : Word} {s : State} {g : Segment}
    (hg : s.segment id = some g) (h : off < g.len) :
    memWrite id off v s = .ok { s with seg := Table.put s.seg id (g.store off v) } := by
  simp [memWrite, hg, Nat.not_le.mpr h]

theorem memWrite_fails {id off : Nat} {v : Word} {s : State}
    (h : ∀ g, s.segment id = some g → g.len ≤ off) :
    memWrite id off v s = .error .memoryFault := by
  unfold memWrite
  split
  · rfl
  · simp [h _ ‹_›]

theorem replaceZero_ok {id : Nat} {s t : State} (h : replaceZero id s = .ok t) :
    ∃ g, s.segment id = some g ∧
      ((id = 0 ∧ t = s) ∨
       (id ≠ 0 ∧ withinCapacity s.config (wordsLive s.seg - lenZero s + g.len) = true ∧
        t = { s with seg := Table.put s.seg 0 g })) := by
  unfold replaceZero at h
  split at h
  · cases h
  · rename_i g hg
    refine ⟨g, hg, ?_⟩
    split at h
    · cases h; exact .inl ⟨‹_›, rfl⟩
    · split at h
      · cases h
      · cases h; exact .inr ⟨‹_›, by simp_all, rfl⟩

theorem replaceZero_error {id : Nat} {s : State} {k : FaultKind} (h : replaceZero id s = .error k) :
    (k = .memoryFault ∧ s.segment id = none) ∨
    (k = .allocationFailure ∧ id ≠ 0 ∧ ∃ g, s.segment id = some g ∧
      withinCapacity s.config (wordsLive s.seg - lenZero s + g.len) = false) := by
  unfold replaceZero at h
  split at h
  · cases h; exact .inl ⟨rfl, ‹_›⟩
  · rename_i g hg
    split at h
    · cases h
    · split at h
      · cases h; exact .inr ⟨rfl, ‹_›, g, hg, by simp_all⟩
      · cases h

theorem replaceZero_copies {id : Nat} {s : State} {g : Segment} (hg : s.segment id = some g)
    (h0 : id ≠ 0) (hc : withinCapacity s.config (wordsLive s.seg - lenZero s + g.len) = true) :
    replaceZero id s = .ok { s with seg := Table.put s.seg 0 g } := by
  simp [replaceZero, hg, h0, hc]

theorem inByte_cases (s : State) :
    (s.input = [] ∧ inByte s = (none, s)) ∨
    (∃ b rest, s.input = b :: rest ∧ inByte s = (some b, { s with input := rest })) := by
  unfold inByte
  split
  · exact .inl ⟨‹_›, rfl⟩
  · exact .inr ⟨_, _, ‹_›, rfl⟩

theorem orRaise_ok {α : Type} (a : α) (s : State) (go : α → Host.Outcome State Fault Refusal) :
    orRaise (.ok a) s go = go a := rfl

theorem orRaise_error {α : Type} (k : FaultKind) (s : State)
    (go : α → Host.Outcome State Fault Refusal) : orRaise (.error k) s go = raise k s := rfl

/-- What an operation's result leads to: it goes on, or its fault is raised. -/
theorem orRaise_next {α : Type} {r : Except FaultKind α} {s t : State}
    {go : α → Host.Outcome State Fault Refusal} (h : orRaise r s go = .next t) :
    (∃ a, r = .ok a ∧ go a = .next t) ∨
    (∃ k, r = .error k ∧ t = { s with status := .faulted k }) := by
  cases r with
  | ok a => exact .inl ⟨a, rfl, h⟩
  | error k => exact .inr ⟨k, rfl, by cases h; rfl⟩

end Sys2Proof.Machine
end

