-- ==== Sys2Proof/Laws/Exec.lean ====
section
/-! SUPPORT. What an instruction and a step can do, said once. -/

namespace Sys2Proof.Machine

/-- The effects an instruction can have on the state after the advance. -/
inductive Effect (s : State) : State → Prop
  | same : Effect s s
  | write (r : Reg) (v : Word) : Effect s (s.setReg r v)
  | store {t : State} (id off : Nat) (v : Word) (h : memWrite id off v s = .ok t) : Effect s t
  | alloc {t : State} (r size : Reg) (id : Nat) (h : alloc (s.reg size).toNat s = .ok (id, t)) :
      Effect s (t.setReg r (BitVec.ofNat 32 id))
  | free {t : State} (id : Nat) (h0 : id ≠ 0) (h : free id s = .ok t) : Effect s t
  | out (b : Byte) : Effect s (outByte b s)
  | inp (r : Reg) (b : Byte) (rest : List Byte) (h : s.input = b :: rest) :
      Effect s (({ s with input := rest } : State).setReg r (byteValue b))
  | halt : Effect s { s with status := .halted }
  | jump (target : Word) : Effect s { s with pc := target }
  | load {t : State} (id : Nat) (target : Word) (h0 : id ≠ 0) (h : replaceZero id s = .ok t) :
      Effect s { t with pc := target }
  | raised (k : FaultKind) : Effect s { s with status := .faulted k }

theorem toNat_ne_zero {v : Word} (h : v ≠ 0) : v.toNat ≠ 0 := fun h' =>
  h (BitVec.eq_of_toNat_eq (by simpa using h'))

/-- Every instruction answers a next state, by one of the effects. -/
theorem exec_cases (i : Instr) (s : State) : ∃ t, exec i s = .next t ∧ Effect s t := by
  cases i with
  | cmov a b c =>
    simp only [exec, execCmov]
    split
    · exact ⟨_, rfl, .write _ _⟩
    · exact ⟨_, rfl, .same⟩
  | sload a b c =>
    simp only [exec, execSload]
    cases h : memRead (s.reg b).toNat (s.reg c).toNat s with
    | ok v => exact ⟨_, rfl, .write _ _⟩
    | error k => exact ⟨_, rfl, .raised k⟩
  | sstore a b c =>
    simp only [exec, execSstore]
    cases h : memWrite (s.reg a).toNat (s.reg b).toNat (s.reg c) s with
    | ok t => exact ⟨_, rfl, .store _ _ _ h⟩
    | error k => exact ⟨_, rfl, .raised k⟩
  | add a b c => exact ⟨_, rfl, .write _ _⟩
  | mul a b c => exact ⟨_, rfl, .write _ _⟩
  | div a b c =>
    simp only [exec, execDiv]
    split
    · exact ⟨_, rfl, .raised _⟩
    · exact ⟨_, rfl, .write _ _⟩
  | nand a b c => exact ⟨_, rfl, .write _ _⟩
  | halt => exact ⟨_, rfl, .halt⟩
  | map b c =>
    simp only [exec, execMap]
    cases h : alloc (s.reg c).toNat s with
    | ok r => exact ⟨_, rfl, .alloc b c r.1 h⟩
    | error k => exact ⟨_, rfl, .raised k⟩
  | unmap c =>
    simp only [exec, execUnmap]
    split
    · exact ⟨_, rfl, .raised _⟩
    · rename_i h0
      cases h : free (s.reg c).toNat s with
      | ok t => exact ⟨_, rfl, .free _ (toNat_ne_zero h0) h⟩
      | error k => exact ⟨_, rfl, .raised k⟩
  | out c =>
    simp only [exec, execOut]
    split
    · exact ⟨_, rfl, .raised _⟩
    · exact ⟨_, rfl, .out _⟩
  | inp c =>
    simp only [exec, execInp]
    rcases inByte_cases s with ⟨hi, h⟩ | ⟨b, rest, hi, h⟩
    · rw [h]; exact ⟨_, rfl, .write _ _⟩
    · rw [h]; exact ⟨_, rfl, .inp c b rest hi⟩
  | loadprog b c =>
    simp only [exec, execLoadprog]
    split
    · rename_i h0
      cases h : replaceZero (s.reg b).toNat s with
      | ok t => exact ⟨_, rfl, .load _ _ (toNat_ne_zero h0) h⟩
      | error k => exact ⟨_, rfl, .raised k⟩
    · exact ⟨_, rfl, .jump _⟩
  | loadimm A imm => exact ⟨_, rfl, .write _ _⟩
  | illegal14 => exact ⟨_, rfl, .raised _⟩
  | illegal15 => exact ⟨_, rfl, .raised _⟩

theorem exec_effect {i : Instr} {s t : State} (h : exec i s = .next t) : Effect s t := by
  obtain ⟨u, hu, he⟩ := exec_cases i s
  rw [h] at hu
  cases hu
  exact he

/-- A step with a next state: the machine was running, and either the fetch faulted or the word fetched
was executed in the advanced state. -/
theorem step_cases {s t : State} (h : step s = .next t) :
    s.status = .running ∧
    ((∃ k, fetch s = .error k ∧ t = { s with status := .faulted k }) ∨
     (∃ w, fetch s = .ok w ∧ exec (decode w) (advance s) = .next t)) := by
  unfold step at h
  split at h
  · cases h
  · cases h
  · rename_i hs
    refine ⟨hs, ?_⟩
    rcases orRaise_next h with ⟨w, hw, he⟩ | ⟨k, hk, rfl⟩
    · exact .inr ⟨w, hw, he⟩
    · exact .inl ⟨k, hk, rfl⟩

theorem step_fetched {s : State} {w : Word} (hs : s.status = .running) (hw : fetch s = .ok w) :
    step s = exec (decode w) (advance s) := by
  simp [step, hs, hw, orRaise]

theorem step_not_fetched {s : State} {k : FaultKind} (hs : s.status = .running)
    (hk : fetch s = .error k) : step s = .next { s with status := .faulted k } := by
  simp [step, hs, hk, orRaise, raise]

/-- A running machine always has a next state. -/
theorem step_running {s : State} (hs : s.status = .running) : ∃ t, step s = .next t := by
  cases hf : fetch s with
  | ok w =>
    obtain ⟨t, ht, -⟩ := exec_cases (decode w) (advance s)
    exact ⟨t, (step_fetched hs hf).trans ht⟩
  | error k => exact ⟨_, step_not_fetched hs hf⟩

theorem fetch_error {s : State} {k : FaultKind} (h : fetch s = .error k) :
    k = .memoryFault ∧ ∀ g, s.segment 0 = some g → g.len ≤ s.pc.toNat := memRead_error h

theorem run_not_running {s : State} (hs : s.status ≠ .running) (n : Nat) : run n s = s := by
  cases n with
  | zero => rfl
  | succ n =>
    cases h : step s with
    | next t => exact absurd (step_cases h).1 hs
    | fault r => simp [run, h]
    | refused r => simp [run, h]

/-- An induction over a run: what holds at the start and every step keeps holds after any number. -/
theorem run_induction {P : State → Prop} (hstep : ∀ s t, P s → step s = .next t → P t)
    (n : Nat) : ∀ s, P s → P (run n s) := by
  induction n with
  | zero => exact fun s hs => hs
  | succ n ih =>
    intro s hs
    simp only [run]
    split
    · exact ih _ (hstep s _ hs ‹_›)
    · exact hs
    · exact hs

end Sys2Proof.Machine
end

