-- ==== Sys2Proof/Laws/Invariant.lean ====
section
/-! SUPPORT. Every memory operation keeps the canonical form, and construction gives it. -/

namespace Sys2Proof.Machine

theorem segment_eq_find (s : State) (id : Nat) : s.segment id = Table.find s.seg id := rfl

theorem live_iff {s : State} {id : Nat} : s.live id = true ↔ ∃ g, s.segment id = some g := by
  simp [State.live, Option.isSome_iff_exists]

theorem not_live_iff {s : State} {id : Nat} : s.live id = false ↔ s.segment id = none := by
  simp [State.live]

/-- `Alloc` keeps the canonical form when the id it takes and the size fit 32 bits. -/
theorem alloc_keeps_wf {size : Nat} {s t : State} {id : Nat} (hm : Memory.wf s.seg)
    (hid : id < 2 ^ 32) (hs : size < 2 ^ 32) (h : alloc size s = .ok (id, t)) : Memory.wf t.seg := by
  obtain ⟨-, ⟨rest, -, rfl⟩ | ⟨-, -, rfl, rfl⟩⟩ := alloc_ok h
  · exact Memory.wf_put hm hid (Segment.wf_zeros hs)
  · exact Memory.wf_put hm hid (Segment.wf_zeros hs)

theorem free_keeps_wf {id : Nat} {s t : State} (hm : Memory.wf s.seg) (h : free id s = .ok t) :
    Memory.wf t.seg := by
  obtain ⟨-, rfl⟩ := free_ok h
  exact Memory.wf_erase hm id

theorem memWrite_keeps_wf {id off : Nat} {v : Word} {s t : State} (hm : Memory.wf s.seg)
    (h : memWrite id off v s = .ok t) : Memory.wf t.seg := by
  obtain ⟨g, hg, hlt, rfl⟩ := memWrite_ok h
  have hf := Memory.wf_find hm hg
  exact Memory.wf_put hm hf.1 (Segment.wf_store hf.2 hlt v)

theorem replaceZero_keeps_wf {id : Nat} {s t : State} (hm : Memory.wf s.seg)
    (h : replaceZero id s = .ok t) : Memory.wf t.seg := by
  obtain ⟨g, hg, ⟨-, rfl⟩ | ⟨-, -, rfl⟩⟩ := replaceZero_ok h
  · exact hm
  · exact Memory.wf_put hm (by decide) (Memory.wf_find hm hg).2

theorem reset_memory_wf : Memory.wf State.reset.seg := by decide

/-- Reset is construction with no program, no input and the default capacity. -/
theorem construct_nothing : construct [] [] Config.default = .ok State.reset := rfl

theorem construct_ok {program : List Word} {input : List Byte} {config : Config} {s : State}
    (h : construct program input config = .ok s) :
    program.length < 2 ^ 32 ∧
    s = { regs := Regs.zero, pc := 0, status := .running, seg := [(0, Segment.ofWords program)],
          pool := [], nextId := 1, input := input, output := [], config := config } := by
  unfold construct at h
  split at h
  · cases h
  · rename_i hl
    cases h
    exact ⟨by simp only [maxProgramWords] at hl; omega, rfl⟩

theorem construct_memory_wf {program : List Word} {input : List Byte} {config : Config} {s : State}
    (h : construct program input config = .ok s) : Memory.wf s.seg := by
  obtain ⟨hl, rfl⟩ := construct_ok h
  refine ⟨by simp [Table.Rising], ?_⟩
  intro p hp
  rw [List.mem_singleton.mp hp]
  exact ⟨Nat.two_pow_pos _, Segment.wf_ofWords hl⟩

/-- The invariant, from conditions that can be evaluated on a state written out as lists. -/
theorem inv_of_lists {s : State} (hm : Memory.wf s.seg) (h0 : s.live 0 = true)
    (hp : s.pool.Nodup ∧ 0 ∉ s.pool ∧ ∀ id ∈ s.pool, s.live id = false ∧ id < s.nextId)
    (hk : ∀ p ∈ s.seg, p.1 < s.nextId) (hall : ∀ id < s.nextId, s.live id = true ∨ id ∈ s.pool)
    (hn : 1 ≤ s.nextId ∧ s.nextId ≤ idLimit) : Inv s := by
  refine ⟨hm, h0, hp.1, fun id h => (hp.2.2 id h).1, hp.2.1, fun id => ⟨?_, hall id⟩, hn⟩
  rintro (h | h)
  · obtain ⟨g, hg⟩ := live_iff.mp h
    exact hk _ (Table.mem_of_find hg)
  · exact (hp.2.2 id h).2

end Sys2Proof.Machine
end

