-- ==== Sys2Proof/Laws/PerInstr.lean ====
section
/-! SUPPORT. Statements for all instructions, one lemma per constructor. -/

namespace Sys2Proof.Laws.OpcodeField

/-- The word an instruction encodes to carries its opcode in bits 31:28 (30_encoding.md R68, R70). -/
def Statement (i : Instr) : Prop := opField (encode i) = i.opcode

theorem cmov (a b c : Reg) : Statement (.cmov a b c) :=
  opField_threeRegisterWord (Instr.opcode_lt _) a.index_lt b.index_lt c.index_lt
theorem sload (a b c : Reg) : Statement (.sload a b c) :=
  opField_threeRegisterWord (Instr.opcode_lt _) a.index_lt b.index_lt c.index_lt
theorem sstore (a b c : Reg) : Statement (.sstore a b c) :=
  opField_threeRegisterWord (Instr.opcode_lt _) a.index_lt b.index_lt c.index_lt
theorem add (a b c : Reg) : Statement (.add a b c) :=
  opField_threeRegisterWord (Instr.opcode_lt _) a.index_lt b.index_lt c.index_lt
theorem mul (a b c : Reg) : Statement (.mul a b c) :=
  opField_threeRegisterWord (Instr.opcode_lt _) a.index_lt b.index_lt c.index_lt
theorem div (a b c : Reg) : Statement (.div a b c) :=
  opField_threeRegisterWord (Instr.opcode_lt _) a.index_lt b.index_lt c.index_lt
theorem nand (a b c : Reg) : Statement (.nand a b c) :=
  opField_threeRegisterWord (Instr.opcode_lt _) a.index_lt b.index_lt c.index_lt
theorem halt : Statement .halt :=
  opField_threeRegisterWord (Instr.opcode_lt _) (by decide) (by decide) (by decide)
theorem map (b c : Reg) : Statement (.map b c) :=
  opField_threeRegisterWord (Instr.opcode_lt _) (by decide) b.index_lt c.index_lt
theorem unmap (c : Reg) : Statement (.unmap c) :=
  opField_threeRegisterWord (Instr.opcode_lt _) (by decide) (by decide) c.index_lt
theorem out (c : Reg) : Statement (.out c) :=
  opField_threeRegisterWord (Instr.opcode_lt _) (by decide) (by decide) c.index_lt
theorem inp (c : Reg) : Statement (.inp c) :=
  opField_threeRegisterWord (Instr.opcode_lt _) (by decide) (by decide) c.index_lt
theorem loadprog (b c : Reg) : Statement (.loadprog b c) :=
  opField_threeRegisterWord (Instr.opcode_lt _) (by decide) b.index_lt c.index_lt
theorem loadimm (A : Reg) (imm : Nat) : Statement (.loadimm A imm) := opField_immediateWord A imm
theorem illegal14 : Statement .illegal14 :=
  opField_threeRegisterWord (Instr.opcode_lt _) (by decide) (by decide) (by decide)
theorem illegal15 : Statement .illegal15 :=
  opField_threeRegisterWord (Instr.opcode_lt _) (by decide) (by decide) (by decide)

end Sys2Proof.Laws.OpcodeField
end

