-- ==== Sys2Proof/Tests/Slice0.lean ====
section
/-! SUPPORT. Checks of this model against the spec's own vectors (95_test_vectors.md), and for every
statement with hypotheses a concrete input that meets them. -/

namespace Sys2Proof.Tests

open Sys2Proof.Machine Sys2Proof.Claims

/-! ### Well-formed terms -/

/-- The smoke test of WellFormed: an immediate of 2^25 does not fit its field (30_encoding.md R77). -/
theorem test_wf_refuses_a_wide_immediate : (Instr.loadimm .r1 (2 ^ 25)).wf = false := by decide
theorem test_wf_admits_the_widest_immediate : (Instr.loadimm .r1 0x1FFFFFF).wf = true := by decide
theorem test_assemble_refuses_a_wide_immediate : assemble (.loadimm .r1 (2 ^ 25)) = none := by decide
/-- The illegal rows have no assembly syntax (30_encoding.md R76). -/
theorem test_assemble_refuses_illegal14 : assemble .illegal14 = none := by decide
theorem test_assemble_refuses_illegal15 : assemble .illegal15 = none := by decide

/-! ### Decoding: words written out bit by bit as opcode, bits 27:9, a, b, c (30_encoding.md R66), or
as opcode, A, immediate (R67), and the words of 95_test_vectors.md section 2.1 -/

theorem test_decode_cmov : decode 0b0000_0000000000000000000_001_010_011#32 = .cmov .r1 .r2 .r3 := by
  decide
theorem test_decode_sload : decode 0b0001_0000000000000000000_011_000_001#32 = .sload .r3 .r0 .r1 := by
  decide
theorem test_decode_sstore : decode 0b0010_0000000000000000000_000_001_010#32 = .sstore .r0 .r1 .r2 := by
  decide
theorem test_decode_add : decode 0b0011_1111111111111111111_001_001_010#32 = .add .r1 .r1 .r2 := by
  decide
theorem test_decode_mul : decode 0b0100_0000000000000000000_111_110_101#32 = .mul .r7 .r6 .r5 := by
  decide
theorem test_decode_div : decode 0b0101_0000000000000000000_011_001_010#32 = .div .r3 .r1 .r2 := by
  decide
theorem test_decode_nand : decode 0b0110_0000000000000000000_100_100_100#32 = .nand .r4 .r4 .r4 := by
  decide
theorem test_decode_halt : decode 0b0111_1111111111111111111_111_111_111#32 = .halt := by decide
theorem test_decode_map : decode 0b1000_0000000000000000000_000_010_011#32 = .map .r2 .r3 := by decide
theorem test_decode_unmap : decode 0b1001_0000000000000000000_000_000_101#32 = .unmap .r5 := by decide
theorem test_decode_out : decode 0b1010_0000000000000000000_111_000_001#32 = .out .r1 := by decide
theorem test_decode_inp : decode 0b1011_0000000000000000000_000_000_110#32 = .inp .r6 := by decide
theorem test_decode_loadprog :
    decode 0b1100_0000000000000000000_000_010_011#32 = .loadprog .r2 .r3 := by decide
theorem test_decode_loadimm :
    decode 0b1101_101_1000000000000000000000000#32 = .loadimm .r5 16777216 := by decide
theorem test_decode_illegal14 : decode 0b1110_0000000000000000000_000_000_000#32 = .illegal14 := by
  decide
theorem test_decode_illegal15 : decode 0xF1234567#32 = .illegal15 := by decide

/-- Words of the programs of 95_test_vectors.md section 3, from their assembly text. -/
theorem test_assemble_map : assemble (.map .r2 .r1) = some 0x80000011#32 := by decide
theorem test_assemble_loadprog : assemble (.loadprog .r2 .r0) = some 0xC0000010#32 := by decide
theorem test_assemble_loadimm : assemble (.loadimm .r2 0x41) = some 0xD4000041#32 := by decide
theorem test_assemble_sstore : assemble (.sstore .r6 .r0 .r1) = some 0x20000181#32 := by decide

/-! ### The host's two entry points -/

theorem test_table_word_add : decodeTableWord 32 0x3000004A = some (.add .r1 .r1 .r2) := by decide
theorem test_table_word_too_long : decodeTableWord 40 0 = none := by decide

/-! ### One step on small states -/

/-- A machine about to run the words of segment 0 with the registers given. -/
def machine (x : Regs) (program : List Word) : State :=
  { State.reset with regs := x, seg := [(0, Segment.ofWords program)] }

/-- The same with a segment 1 of ten words, all zero but what is listed (95_test_vectors.md section 2.3). -/
def machineWithOne (x : Regs) (cells : List (Nat × Word)) (program : List Word) : State :=
  { State.reset with regs := x, nextId := 2,
                     seg := [(0, Segment.ofWords program), (1, { len := 10, words := cells })] }

/-- The answer is a next state of which `p` holds. -/
def gives (o : Host.Outcome State Fault Refusal) (p : State → Bool) : Bool :=
  match o with
  | .next t => p t
  | .fault _ => false
  | .refused _ => false

/-- A2: the condition holds. -/
theorem test_cmov_moves : gives (step (machine ⟨0, 0x3A, 2, 1, 0, 0, 0, 0⟩ [0x00000053#32]))
    (fun t => t.reg .r1 = 2 ∧ t.pc = 1 ∧ t.status = .running) = true := by decide
/-- A1: the condition fails. -/
theorem test_cmov_keeps : gives (step (machine ⟨0, 0x3A, 2, 0, 0, 0, 0, 0⟩ [0x00000053#32]))
    (fun t => t.reg .r1 = 0x3A ∧ t.pc = 1) = true := by decide
/-- A9. -/
theorem test_add_wraps :
    gives (step (machine ⟨0, 0x89ABCDEF, 0x87654321, 0, 0, 0, 0, 0⟩ [0x3000000A#32]))
      (fun t => t.reg .r0 = 0x11111110) = true := by decide
/-- A10: the source is the destination. -/
theorem test_add_aliased : gives (step (machine ⟨0, 0x80000001, 0, 0, 0, 0, 0, 0⟩ [0x30000049#32]))
    (fun t => t.reg .r1 = 2) = true := by decide
/-- A14. -/
theorem test_mul_wraps :
    gives (step (machine ⟨0, 0, 0, 0, 0, 0x9ABCDEF0, 0x12345678, 0⟩ [0x400001F5#32]))
      (fun t => t.reg .r7 = 0x242D2080) = true := by decide
/-- A18: unsigned. -/
theorem test_div_unsigned :
    gives (step (machine ⟨0, 0x80000000, 0xFFFFFFFF, 9, 0, 0, 0, 0⟩ [0x500000CA#32]))
      (fun t => t.reg .r3 = 0) = true := by decide
/-- A22: pc is past the instruction, the destination is not written. -/
theorem test_div_by_zero : gives (step (machine ⟨0, 99, 0, 7, 0, 0, 0, 0⟩ [0x500000CA#32]))
    (fun t => t.reg .r3 = 7 ∧ t.pc = 1 ∧ t.status = .faulted .divisionByZero) = true := by decide
/-- A29. -/
theorem test_nand : gives (step (machine ⟨0, 0, 0x12345678, 0x0F0F0F0F, 0, 0, 0, 0⟩ [0x60000053#32]))
    (fun t => t.reg .r1 = 0xFDFBF9F7) = true := by decide
/-- A30 and A31. -/
theorem test_loadimm_clears_upper_bits :
    gives (step (machine ⟨0, 0xFFFFFFFF, 0, 0, 0, 0, 0, 0⟩ [0xD2000041#32]))
      (fun t => t.reg .r1 = 0x41) = true := by decide
theorem test_loadimm_widest : gives (step (machine Regs.zero [0xDFFFFFFF#32]))
    (fun t => t.reg .r7 = 0x01FFFFFF) = true := by decide
/-- M2 and M4: field b names the segment, field c the offset; an offset of the length faults. -/
theorem test_sload : gives
    (step (machineWithOne ⟨0, 7, 1, 9, 0, 0, 0, 0⟩ [(9, 0x12345678)] [0x10000053#32]))
    (fun t => t.reg .r1 = 0x12345678) = true := by decide
theorem test_sload_at_the_length : gives
    (step (machineWithOne ⟨0, 7, 1, 10, 0, 0, 0, 0⟩ [(9, 0x12345678)] [0x10000053#32]))
    (fun t => t.reg .r1 = 7 ∧ t.status = .faulted .memoryFault) = true := by decide
/-- M1 and M5: field a names the segment, field b the offset, field c the value. -/
theorem test_sstore : gives
    (step (machineWithOne ⟨0, 1, 9, 0x12345678, 0, 0, 0, 0⟩ [] [0x20000053#32]))
    (fun t => t.segment 1 = some { len := 10, words := [(9, 0x12345678)] }) = true := by decide
theorem test_sstore_at_the_length : gives
    (step (machineWithOne ⟨0, 1, 10, 5, 0, 0, 0, 0⟩ [] [0x20000053#32]))
    (fun t => t.segment 1 = some { len := 10, words := [] } ∧ t.status = .faulted .memoryFault)
    = true := by decide
/-- G9: the size is latched before the id is written; the destination is field b. -/
theorem test_map_mints : gives (step (machine ⟨0, 0, 3, 0, 0, 0, 0, 0⟩ [0x80000012#32]))
    (fun t => t.reg .r2 = 1 ∧ t.nextId = 2 ∧ segLen 1 t = .ok 3) = true := by decide
/-- G6: the id freed last comes back. -/
theorem test_map_reuses : gives
    (step { machine ⟨0, 0, 0, 0, 0, 0, 0, 4⟩ [0x80000027#32] with pool := [1, 2], nextId := 4 })
    (fun t => t.reg .r4 = 1 ∧ t.pool = [2] ∧ t.nextId = 4) = true := by decide
/-- G5. -/
theorem test_unmap : gives (step (machineWithOne ⟨0, 1, 0, 0, 0, 0, 0, 0⟩ [] [0x90000001#32]))
    (fun t => t.live 1 = false ∧ t.pool = [1] ∧ t.nextId = 2) = true := by decide
/-- G12: id 0 is refused. -/
theorem test_unmap_zero : gives (step (machine Regs.zero [0x90000000#32]))
    (fun t => t.live 0 = true ∧ t.pool = [] ∧ t.pc = 1 ∧ t.status = .faulted .memoryFault) = true := by
  decide
/-- I3 and I4. -/
theorem test_out_widest : gives (step (machine ⟨0, 0xFF, 0, 0, 0, 0, 0, 0⟩ [0xA0000001#32]))
    (fun t => t.output = [0xFF] ∧ t.status = .running) = true := by decide
theorem test_out_too_large : gives (step (machine ⟨0, 0x100, 0, 0, 0, 0, 0, 0⟩ [0xA0000001#32]))
    (fun t => t.output = [] ∧ t.pc = 1 ∧ t.status = .faulted .invalidOutputValue) = true := by decide
/-- I7 and I8: a byte 0xFF is data, end of stream is all ones. -/
theorem test_inp_byte : gives (step { machine Regs.zero [0xB0000006#32] with input := [0xFF] })
    (fun t => t.reg .r6 = 0x000000FF ∧ t.input = []) = true := by decide
theorem test_inp_end_of_stream : gives (step (machine ⟨0, 0, 0, 0, 0, 0, 7, 0⟩ [0xB0000006#32]))
    (fun t => t.reg .r6 = 0xFFFFFFFF ∧ t.input = []) = true := by decide
/-- K2. -/
theorem test_halt : gives (step (machine Regs.zero [0x7FFFFFFF#32]))
    (fun t => t.status = .halted ∧ t.pc = 1) = true := by decide
/-- K4: a jump beyond the program succeeds. -/
theorem test_loadprog_jumps : gives (step (machine ⟨0, 0, 100, 0, 0, 0, 0, 0⟩ [0xC0000002#32]))
    (fun t => t.pc = 100 ∧ t.status = .running ∧ segLen 0 t = .ok 1) = true := by decide
/-- K7, its last LOADPROG. -/
theorem test_loadprog_replaces : gives
    (step (machineWithOne ⟨0, 0, 1, 0, 0, 0, 0, 0⟩ [(0, 0x70000000)] [0xC0000010#32]))
    (fun t => t.pc = 0 ∧ t.segment 0 = some { len := 10, words := [(0, 0x70000000)] } ∧
      t.segment 1 = t.segment 0) = true := by decide
/-- F3 and its opcode 15 form. -/
theorem test_illegal14 : gives (step (machine Regs.zero [0xE0000000#32]))
    (fun t => t.status = .faulted .invalidOpcode ∧ t.pc = 1) = true := by decide
theorem test_illegal15 : gives (step (machine Regs.zero [0xFFFFFFFF#32]))
    (fun t => t.status = .faulted .invalidOpcode ∧ t.pc = 1) = true := by decide
/-- F2: the fetch fault leaves pc unchanged. -/
theorem test_empty_program : gives (step State.reset)
    (fun t => t.status = .faulted .memoryFault ∧ t.pc = 0) = true := by decide
/-- The word the host places is what the first step after reset runs. -/
theorem test_placed_word : gives (step (State.reset.withFetchWord 32 0xD2000041))
    (fun t => t.reg .r1 = 65 ∧ t.pc = 1) = true := by decide
theorem test_reset_memory_wf : Memory.wf State.reset.seg := by decide
/-- The first word of the image of S-A (R143), and an image of three bytes (R144). -/
theorem test_image : imageWords [0xD2, 0x00, 0x00, 0x41] = .ok [0xD2000041#32] := by decide
theorem test_image_refused : imageWords [0xD2, 0x00, 0x00] = .error .loadFailure := by decide
/-- P4: the word stored is the next one fetched. -/
theorem test_store_is_fetched :
    gives (step (machine ⟨0, 1, 0, 0x70000000, 0, 0, 0, 0⟩ [0x2000000B#32, 0x50000124#32]))
      (fun t => gives (step t) (fun u => u.status = .halted ∧ u.pc = 2)) = true := by decide
/-- The capacity bounds MAP (20_memory.md R45). -/
theorem test_map_beyond_capacity : gives
    (step { machine ⟨0, 0, 3, 0, 0, 0, 0, 0⟩ [0x80000012#32] with config := ⟨some 3⟩ })
    (fun t => t.status = .faulted .allocationFailure ∧ t.reg .r2 = 3 ∧ t.nextId = 1) = true := by
  decide

/-! ### Witnesses: for each statement with hypotheses, an input that meets them all, one conjunct for
each clause, at the boundary of its range -/

theorem inBounds_iff {s : State} {id off : Nat} :
    InBounds s id off ↔ (s.segment id).any (fun g => decide (off < g.len)) = true := by
  simp only [InBounds]
  cases s.segment id <;> simp

theorem fits_iff {s : State} {n : Nat} : Fits s n ↔ withinCapacity s.config n = true := by
  simp only [Fits, withinCapacity]
  cases s.config.memWordsMax <;> simp

theorem manager_of_inv {s : State} (h : Inv s) : ManagerInvariants s := by
  refine ⟨h.zero_live, h.pool_distinct, h.pool_dead, h.zero_not_pooled, h.ids_minted, fun id hid => ?_⟩
  have hn := mt (h.ids_minted id).mp (Nat.not_lt.mpr hid)
  simpa [not_or] using hn

/-- HALT alone. -/
def halting : State := machine Regs.zero [0x70000000#32]
/-- The same past its only word. -/
def beyond : State := { halting with pc := 1 }
/-- DIV by zero. -/
def dividing : State := machine ⟨0, 99, 0, 7, 0, 0, 0, 0⟩ [0x500000CA#32]
/-- LOADPROG r0, r2 to 100. -/
def jumping : State := machine ⟨0, 0, 100, 0, 0, 0, 0, 0⟩ [0xC0000002#32]
/-- LOADPROG r1, r2 of the dead id 9. -/
def loadingDead : State := machine ⟨0, 9, 0, 0, 0, 0, 0, 0⟩ [0xC000000A#32]
/-- LOADPROG r2, r0 of segment 1, and room for exactly what it leaves live. -/
def loading : State :=
  { machineWithOne ⟨0, 0, 1, 0, 0, 0, 0, 0⟩ [(0, 0x70000000)] [0xC0000010#32] with config := ⟨some 20⟩ }
/-- MAP r2, r2 of three words, with room for exactly those. -/
def mapping : State := { machine ⟨0, 0, 3, 0, 0, 0, 0, 0⟩ [0x80000012#32] with config := ⟨some 4⟩ }
/-- The same with room for one word less. -/
def crowded : State := { mapping with config := ⟨some 3⟩ }
/-- UNMAP r1 of segment 1. -/
def unmapping : State := machineWithOne ⟨0, 1, 0, 0, 0, 0, 0, 0⟩ [] [0x90000001#32]
/-- SSTORE r1, r2, r3 to the last word of segment 1. -/
def storing : State := machineWithOne ⟨0, 1, 9, 0x12345678, 0, 0, 0, 0⟩ [] [0x20000053#32]
/-- SSTORE r0, r1, r3 to the index after its own (95_test_vectors.md program P4). -/
def patching : State := machine ⟨0, 1, 0, 0x70000000, 0, 0, 0, 0⟩ [0x2000000B#32, 0x50000124#32]
/-- Ids 1 and 2 freed, 1 last. -/
def pooled : State := { halting with pool := [1, 2], nextId := 3 }
/-- The last id is minted and none is free. -/
def exhausted : State := { halting with nextId := 2 ^ 32 }

theorem halting_inv : Inv halting := by apply inv_of_lists <;> decide
theorem beyond_inv : Inv beyond := by apply inv_of_lists <;> decide
theorem jumping_inv : Inv jumping := by apply inv_of_lists <;> decide
theorem loadingDead_inv : Inv loadingDead := by apply inv_of_lists <;> decide
theorem loading_inv : Inv loading := by apply inv_of_lists <;> decide
theorem mapping_inv : Inv mapping := by apply inv_of_lists <;> decide
theorem unmapping_inv : Inv unmapping := by apply inv_of_lists <;> decide
theorem storing_inv : Inv storing := by apply inv_of_lists <;> decide
theorem pooled_inv : Inv pooled := by apply inv_of_lists <;> decide

theorem witness_DecodingAnEncodedInstructionGivesItBack :
    (Instr.loadimm .r7 0x1FFFFFF).wf = true ∧ (Instr.sstore .r7 .r0 .r7).wf = true := by decide

theorem witness_ReencodingADecodedWordClearsItsUnusedBits :
    (HasOp 0xDFFFFFFF#32 13 ∧ 0xDFFFFFFF#32 &&& unusedBits 13 = 0) ∧
    (HasOp 0x3FFFFE4A#32 3 ∧ 0x3FFFFE4A#32 &&& unusedBits 3 ≠ 0) ∧
    assemble (.loadimm .r7 0x1FFFFFF) = some 0xDFFFFFFF#32 ∧ (2 ^ 25 : Nat) ≤ 2 ^ 25 := by
  simp only [HasOp]; decide

theorem witness_UnusedBitsOfAWordDoNotMatter :
    HasOp 0xCFFFFFD3#32 12 ∧ HasOp 0xC0000013#32 12 ∧
    (0xCFFFFFD3#32 ^^^ 0xC0000013#32) &&& ~~~unusedBits 12 = 0 := by
  simp only [HasOp]; decide

theorem witness_AStepRunsTheDecodedInstruction :
    (halting.status = .running ∧ ∃ g, halting.segment 0 = some g ∧ halting.pc.toNat + 1 = g.len) ∧
    (beyond.status = .running ∧ ¬ InBounds beyond 0 beyond.pc.toNat) := by
  refine ⟨⟨rfl, _, rfl, by decide⟩, rfl, ?_⟩
  rw [inBounds_iff]; decide

theorem witness_AStepIsEnabledExactlyWhenRunning :
    halting.status = .running ∧ ({ halting with status := .halted } : State).status = .halted ∧
    ({ halting with status := .faulted .memoryFault } : State).status = .faulted .memoryFault :=
  ⟨rfl, rfl, rfl⟩

theorem witness_HowAStepChangesThePc_fetch_fault :
    Inv beyond ∧ (∃ t, step beyond = .next t) ∧ ¬ InBounds beyond 0 beyond.pc.toNat := by
  refine ⟨beyond_inv, ⟨_, rfl⟩, ?_⟩
  rw [inBounds_iff]; decide
theorem witness_HowAStepChangesThePc_jump :
    Inv jumping ∧ ∃ t g, step jumping = .next t ∧ jumping.segment 0 = some g ∧ jumping.pc.toNat < g.len ∧
      decode (g.wordAt jumping.pc.toNat) = .loadprog .r0 .r2 ∧ t.status = .running :=
  ⟨jumping_inv, _, _, rfl, rfl, by decide, by decide, rfl⟩
theorem witness_HowAStepChangesThePc_other :
    Inv halting ∧ ∃ t g, step halting = .next t ∧ halting.segment 0 = some g ∧
      halting.pc.toNat < g.len ∧ ∀ b c, decode (g.wordAt halting.pc.toNat) ≠ .loadprog b c := by
  refine ⟨halting_inv, _, _, rfl, rfl, by decide, fun b c h => ?_⟩
  have hd : decode ((Segment.ofWords [0x70000000#32]).wordAt halting.pc.toNat) = .halt := by decide
  exact absurd (hd.symm.trans h) (by simp)
theorem witness_HowAStepChangesThePc_loadprog_fault :
    Inv loadingDead ∧ ∃ t g, step loadingDead = .next t ∧ loadingDead.segment 0 = some g ∧
      loadingDead.pc.toNat < g.len ∧ t.status ≠ .running :=
  ⟨loadingDead_inv, _, _, rfl, rfl, by decide, by decide⟩

theorem witness_FaultsArePrecise :
    (∃ t, step dividing = .next t ∧ t.status = .faulted .divisionByZero) ∧
    (∃ t, step beyond = .next t ∧ t.status = .faulted .memoryFault) :=
  ⟨⟨_, rfl, rfl⟩, _, rfl, rfl⟩

theorem witness_EveryFaultHasItsListedCause :
    (¬ InBounds beyond 0 beyond.pc.toNat ∧ ∃ t, step beyond = .next t) ∧
    (∃ g t, dividing.segment 0 = some g ∧ dividing.pc.toNat < g.len ∧ step dividing = .next t ∧
      t.status = .faulted .divisionByZero) := by
  refine ⟨⟨?_, _, rfl⟩, _, _, rfl, by decide, rfl, rfl⟩
  rw [inBounds_iff]; decide

theorem witness_RegistersReadAndWrittenAreThoseListed :
    ((∃ t, exec (.cmov .r1 .r2 .r3) halting = .next t) ∧
      writes halting (.cmov .r1 .r2 .r3) ≠ some .r1) ∧
    Reg.r1 ∉ uses (.cmov .r1 .r2 .r3) := by
  refine ⟨⟨⟨_, rfl⟩, ?_⟩, ?_⟩
  · show (if halting.reg .r3 ≠ 0 then some Reg.r1 else none) ≠ some .r1
    decide
  · simp [uses]

theorem witness_ARunStopsAtMostOnce :
    (run 1 halting).status ≠ .running ∧ (run (1 + 0) jumping).status = .running := by decide

theorem witness_TheManagersInvariantsHoldAndAreKept :
    (∃ s, construct [0x70000000#32] [0xFF#8] ⟨some 1⟩ = .ok s) ∧
    (ManagerInvariants mapping ∧ ∃ t, step mapping = .next t) ∧
    (ManagerInvariants unmapping ∧ ∃ t, step unmapping = .next t) :=
  ⟨⟨_, rfl⟩, ⟨manager_of_inv mapping_inv, _, rfl⟩, manager_of_inv unmapping_inv, _, rfl⟩

theorem witness_EveryStepKeepsMemoryCanonicalAndIdsInRange :
    (∃ s, construct [0x70000000#32] [0xFF#8] ⟨some 1⟩ = .ok s) ∧
    (Inv storing ∧ ∃ t, step storing = .next t) :=
  ⟨⟨_, rfl⟩, storing_inv, _, rfl⟩

theorem witness_LiveWordsStayWithinTheCapacity :
    (Inv mapping ∧ Fits mapping (liveWords mapping) ∧ ∃ t, step mapping = .next t) ∧
    (Inv loading ∧ Fits loading (liveWords loading) ∧ ∃ t, step loading = .next t) := by
  refine ⟨⟨mapping_inv, ?_, _, rfl⟩, loading_inv, ?_, _, rfl⟩ <;> (rw [fits_iff]; decide)

theorem witness_ExistingSegmentsKeepTheirLength :
    (Inv storing ∧ ∃ t g g', step storing = .next t ∧ storing.segment 1 = some g ∧
      t.segment 1 = some g') ∧
    (Inv loading ∧ ∃ t g g', step loading = .next t ∧ loading.segment 0 = some g ∧
      t.segment 0 = some g' ∧ g'.len ≠ g.len) :=
  ⟨⟨storing_inv, _, _, _, rfl, rfl, rfl⟩, loading_inv, _, _, _, rfl, rfl, rfl, by decide⟩

theorem witness_EmittedBytesAreNeverTakenBack :
    ∃ t, step (machine ⟨0, 0xFF, 0, 0, 0, 0, 0, 0⟩ [0xA0000001#32]) = .next t ∧ t.output = [0xFF] :=
  ⟨_, rfl, by decide⟩

theorem witness_InputIsConsumedInOrderByInOnly :
    ∃ t, step { machine Regs.zero [0xB0000006#32] with input := [0x68, 0x69] } = .next t ∧
      t.input = [0x69] :=
  ⟨_, rfl, rfl⟩

theorem witness_TheLifeCycleOfAnId :
    (Inv pooled ∧ pooled.nextId ≤ 3 ∧ pooled.live 0 = true ∧ 1 ∈ pooled.pool) ∧
    (Inv mapping ∧ ∃ t, step mapping = .next t ∧ t.live 1 ≠ mapping.live 1) ∧
    (Inv unmapping ∧ ∃ t, step unmapping = .next t ∧ t.live 1 ≠ unmapping.live 1) ∧
    pooled.live 2 = false :=
  ⟨⟨pooled_inv, by decide, by decide, by decide⟩, ⟨mapping_inv, _, rfl, by decide⟩,
    ⟨unmapping_inv, _, rfl, by decide⟩, by decide⟩

theorem witness_WordsAreReadBackAsWritten :
    ¬ InBounds storing 1 10 ∧ ¬ InBounds storing 2 0 ∧ InBounds storing 1 9 ∧
    ∃ g, storing.segment 1 = some g ∧ 9 < g.len := by
  refine ⟨?_, ?_, ⟨_, rfl, by decide⟩, _, rfl, by decide⟩ <;> (rw [inBounds_iff]; decide)

theorem witness_AllocReusesTheLastFreedIdOrMintsTheNext :
    NoIdLeft exhausted ∧ ¬ Fits crowded (liveWords crowded + 3) ∧
    (¬ NoIdLeft mapping ∧ Fits mapping (liveWords mapping + 3) ∧ mapping.pool = []) ∧
    (¬ NoIdLeft pooled ∧ Fits pooled (liveWords pooled + 4) ∧ pooled.pool = 1 :: [2]) := by
  simp only [fits_iff, NoIdLeft]; decide

theorem witness_FreeUnbindsAnIdAndPushesItOnThePool :
    unmapping.segment 2 = none ∧ ∃ g, unmapping.segment 1 = some g := ⟨rfl, _, rfl⟩

theorem witness_ReplaceZeroCopiesASegmentOverSegmentZero :
    loading.segment 2 = none ∧ (∃ g, loading.segment 0 = some g) ∧
    (∃ g, ({ loading with config := ⟨some 19⟩ } : State).segment 1 = some g ∧
      ¬ Fits { loading with config := ⟨some 19⟩ } (liveWords loading - zeroLen loading + g.len)) ∧
    (∃ g t, loading.segment 1 = some g ∧ Fits loading (liveWords loading - zeroLen loading + g.len) ∧
      replaceZero 1 loading = .ok t ∧ (∃ u, memWrite 1 9 5 t = .ok u) ∧ ∃ u, memWrite 0 9 5 t = .ok u) := by
  refine ⟨rfl, ⟨_, rfl⟩, ⟨_, rfl, ?_⟩, ⟨_, _, rfl, ?_, rfl, ⟨_, rfl⟩, _, rfl⟩⟩ <;> (rw [fits_iff]; decide)

theorem witness_FreedIdsComeBackInReverseOrder :
    ∃ s t u got, freeAll [2, 1] s = some t ∧ [0, 5].length = [2, 1].length ∧
      allocAll [0, 5] t = some (got, u) :=
  ⟨{ halting with seg := [(0, Segment.zeros 1), (1, Segment.zeros 0), (2, Segment.zeros 4)], nextId := 3 },
    _, _, _, rfl, rfl, rfl⟩

theorem witness_TheWorkedReuseOrder :
    let s : State := { halting with nextId := 2 ^ 32 - 4, config := ⟨some 22⟩ }
    Fits s (liveWords s + (1 + 2 + 3 + 4 + 5 + 6)) ∧ s.pool = [] ∧ s.nextId + 3 < 2 ^ 32 := by
  simp only [fits_iff]; decide

theorem witness_TheNextFetchSeesEveryStore :
    ((∃ t, exec (.sstore .r0 .r1 .r2) halting = .next t) ∧ halting.reg .r0 = 0 ∧
      InBounds halting 0 (halting.reg .r1).toNat) ∧
    (∃ t g, step patching = .next t ∧ patching.segment 0 = some g ∧ patching.pc.toNat < g.len ∧
      decode (g.wordAt patching.pc.toNat) = .sstore .r0 .r1 .r3 ∧ patching.reg .r0 = 0 ∧
      patching.reg .r1 = patching.pc + 1 ∧ InBounds patching 0 (patching.reg .r1).toNat) ∧
    (∃ t g, exec (.loadprog .r2 .r0) loading = .next t ∧ loading.reg .r2 ≠ 0 ∧
      loading.segment (loading.reg .r2).toNat = some g ∧
      Fits loading (liveWords loading - zeroLen loading + g.len) ∧ (loading.reg .r0).toNat < g.len) := by
  refine ⟨⟨⟨_, rfl⟩, rfl, _, rfl, by decide⟩,
    ⟨_, _, rfl, rfl, by decide, by decide, rfl, by decide, _, rfl, by decide⟩,
    _, _, rfl, by decide, rfl, ?_, by decide⟩
  rw [fits_iff]; decide

theorem witness_ConstructionGivesTheTableOfInitialValues :
    (List.replicate (2 ^ 32 - 1) (7 : Word)).length ≤ 2 ^ 32 - 1 ∧
    2 ^ 32 ≤ (List.replicate (2 ^ 32) (7 : Word)).length := by
  simp only [List.length_replicate]; decide

theorem witness_ProgramImagesAreReadBigEndian :
    ([0xD2, 0x00, 0x00, 0x41] : List Byte).length = 4 * 1 := rfl

theorem witness_ImagesWithATrailingPartialWordAreRejected :
    ([0xD2] : List Byte).length % 4 ≠ 0 ∧ ([0xD2, 0x00, 0x00, 0x41, 0xA0, 0, 0] : List Byte).length % 4 ≠ 0 := by
  decide

theorem witness_APlacedWordIsTheNextInstruction :
    (32 : Nat) ≤ 32 ∧ 0 ≠ beyond.pc.toNat ∧ InBounds beyond 0 0 ∧ (1 : Nat) ≠ 0 :=
  ⟨by decide, by decide, ⟨_, rfl, by decide⟩, by decide⟩

theorem witness_CmovMovesWhenTheConditionIsNotZero :
    (HasOp 0x000001C7#32 0 ∧ HasA 0x000001C7#32 .r7 ∧ HasB 0x000001C7#32 .r0 ∧ HasC 0x000001C7#32 .r7) ∧
    jumping.reg .r2 ≠ 0 ∧ jumping.reg .r1 = 0 := by
  simp only [HasOp, HasA, HasB, HasC]; decide

theorem witness_AddWritesTheSumModuloTwoToThe32 :
    HasOp 0x3FFFFE4A#32 3 ∧ HasA 0x3FFFFE4A#32 .r1 ∧ HasB 0x3FFFFE4A#32 .r1 ∧ HasC 0x3FFFFE4A#32 .r2 := by
  simp only [HasOp, HasA, HasB, HasC]; decide

theorem witness_MulWritesTheProductModuloTwoToThe32 :
    HasOp 0x400001F5#32 4 ∧ HasA 0x400001F5#32 .r7 ∧ HasB 0x400001F5#32 .r6 ∧ HasC 0x400001F5#32 .r5 := by
  simp only [HasOp, HasA, HasB, HasC]; decide

theorem witness_DivWritesTheUnsignedQuotientOrFaults :
    (HasOp 0x500000CA#32 5 ∧ HasA 0x500000CA#32 .r3 ∧ HasB 0x500000CA#32 .r1 ∧ HasC 0x500000CA#32 .r2) ∧
    dividing.reg .r1 ≠ 0 ∧ dividing.reg .r2 = 0 := by
  simp only [HasOp, HasA, HasB, HasC]; decide

theorem witness_NandWritesTheComplementOfTheConjunction :
    (HasOp 0x60000124#32 6 ∧ HasA 0x60000124#32 .r4 ∧ HasB 0x60000124#32 .r4 ∧ HasC 0x60000124#32 .r4) ∧
    31 < 32 := by
  simp only [HasOp, HasA, HasB, HasC]; decide

theorem witness_LoadimmWritesTheZeroExtendedImmediate :
    (HasOp 0xDFFFFFFF#32 13 ∧ ((0xDFFFFFFF#32 : Word).extractLsb 27 25).toNat = Reg.r7.index) ∧
    0x1FFFFFF < 2 ^ 25 := by
  simp only [HasOp]; decide

theorem witness_SloadReadsTheAddressedWordOrFaults :
    (HasOp 0x10000053#32 1 ∧ HasA 0x10000053#32 .r1 ∧ HasB 0x10000053#32 .r2 ∧ HasC 0x10000053#32 .r3) ∧
    (∃ g, (storing.setReg .r3 9).segment ((storing.setReg .r3 9).reg .r1).toNat = some g ∧
      ((storing.setReg .r3 9).reg .r3).toNat < g.len) ∧
    ¬ InBounds (storing.setReg .r3 10) ((storing.setReg .r3 10).reg .r1).toNat
      ((storing.setReg .r3 10).reg .r3).toNat := by
  refine ⟨by simp only [HasOp, HasA, HasB, HasC]; decide, ⟨_, rfl, by decide⟩, ?_⟩
  rw [inBounds_iff]; decide

theorem witness_SstoreWritesTheAddressedWordOrFaults :
    (HasOp 0x20000053#32 2 ∧ HasA 0x20000053#32 .r1 ∧ HasB 0x20000053#32 .r2 ∧ HasC 0x20000053#32 .r3) ∧
    InBounds storing (storing.reg .r1).toNat (storing.reg .r2).toNat ∧
    ¬ InBounds (storing.setReg .r2 10) ((storing.setReg .r2 10).reg .r1).toNat
      ((storing.setReg .r2 10).reg .r2).toNat := by
  refine ⟨by simp only [HasOp, HasA, HasB, HasC]; decide, ⟨_, rfl, by decide⟩, ?_⟩
  rw [inBounds_iff]; decide

theorem witness_HaltStopsTheMachine :
    HasOp 0x7FFFFFFF#32 7 ∧ ∃ t, step halting = .next t ∧ t.status = .halted :=
  ⟨by simp only [HasOp]; decide, _, rfl, rfl⟩

theorem witness_MapBindsAZeroedSegmentOrFaults :
    (HasOp 0x80000013#32 8 ∧ HasB 0x80000013#32 .r2 ∧ HasC 0x80000013#32 .r3) ∧
    (¬ NoIdLeft mapping ∧ Fits mapping (liveWords mapping + (mapping.reg .r2).toNat) ∧
      mapping.pool = [] ∧ 2 < (mapping.reg .r2).toNat ∧ 2 ≠ nextFresh mapping) ∧
    (¬ NoIdLeft pooled ∧ Fits pooled (liveWords pooled + (pooled.reg .r2).toNat) ∧
      pooled.pool = 1 :: [2]) ∧
    NoIdLeft exhausted ∧ ¬ Fits crowded (liveWords crowded + (crowded.reg .r2).toNat) := by
  simp only [HasOp, HasB, HasC, fits_iff, NoIdLeft, nextFresh]; decide
theorem witness_MapBindsAZeroedSegmentOrFaults_invariant : Inv mapping ∧ Inv pooled :=
  ⟨mapping_inv, pooled_inv⟩

theorem witness_UnmapFreesALiveSegmentOrFaults :
    (HasOp 0x90000005#32 9 ∧ HasC 0x90000005#32 .r5) ∧
    (unmapping.reg .r1 ≠ 0 ∧ ∃ g, unmapping.segment (unmapping.reg .r1).toNat = some g) ∧
    unmapping.reg .r0 = 0 ∧
    ((unmapping.setReg .r1 2).reg .r1 ≠ 0 ∧
      (unmapping.setReg .r1 2).segment ((unmapping.setReg .r1 2).reg .r1).toNat = none) :=
  ⟨by simp only [HasOp, HasC]; decide, ⟨by decide, _, rfl⟩, rfl, by decide, rfl⟩

theorem witness_OutEmitsOneByteOrFaults :
    (HasOp 0xA00001C1#32 10 ∧ HasC 0xA00001C1#32 .r1) ∧
    ((halting.setReg .r1 255).reg .r1).toNat ≤ 255 ∧
    255 < ((halting.setReg .r1 256).reg .r1).toNat := by
  simp only [HasOp, HasC]; decide

theorem witness_InReadsOneByteOrTheEndOfStream :
    (HasOp 0xB0000006#32 11 ∧ HasC 0xB0000006#32 .r6) ∧
    ({ halting with input := [0xFF] } : State).input = 0xFF :: [] ∧ halting.input = [] := by
  simp only [HasOp, HasC]; decide

theorem witness_LoadprogJumpsAndReplacesTheProgramOrFaults :
    (HasOp 0xC0000013#32 12 ∧ HasB 0xC0000013#32 .r2 ∧ HasC 0xC0000013#32 .r3) ∧
    jumping.reg .r0 = 0 ∧
    (∃ g, loading.reg .r2 ≠ 0 ∧ loading.segment (loading.reg .r2).toNat = some g ∧
      Fits loading (liveWords loading - zeroLen loading + g.len)) ∧
    (loadingDead.reg .r1 ≠ 0 ∧ loadingDead.segment (loadingDead.reg .r1).toNat = none) ∧
    (∃ g, loading.segment (loading.reg .r2).toNat = some g ∧
      ¬ Fits { loading with config := ⟨some 19⟩ } (liveWords loading - zeroLen loading + g.len)) := by
  refine ⟨by simp only [HasOp, HasB, HasC]; decide, rfl, ⟨_, by decide, rfl, ?_⟩, ⟨by decide, rfl⟩,
    _, rfl, ?_⟩ <;> (rw [fits_iff]; decide)

theorem witness_IllegalOpcodesRaiseInvalidOpcode :
    HasOp 0xE0000000#32 14 ∧ HasOp 0xFFFFFFFF#32 15 ∧
    ∃ g, (machine Regs.zero [0xE0000000#32]).segment 0 = some g ∧
      (machine Regs.zero [0xE0000000#32]).status = .running ∧
      (machine Regs.zero [0xE0000000#32]).pc.toNat < g.len ∧
      0xE0000000 ≤ (g.wordAt (machine Regs.zero [0xE0000000#32]).pc.toNat).toNat :=
  ⟨by simp only [HasOp]; decide, by simp only [HasOp]; decide, _, rfl, rfl, by decide, by decide⟩

end Sys2Proof.Tests
end

section
/-! PROOFS. The registers an instruction writes and uses (10_state.md R21). -/

namespace Sys2Proof.Proofs

open Sys2Proof.Machine Sys2Proof.Claims

/-! ### The manager's operations and the registers -/

section Manager

variable {s t : State}

theorem alloc_regs {size id : Nat} (h : alloc size s = .ok (id, t)) : t.regs = s.regs := by
  obtain ⟨-, ⟨rest, -, rfl⟩ | ⟨-, -, -, rfl⟩⟩ := alloc_ok h
  · rfl
  · rfl

theorem free_regs {id : Nat} (h : free id s = .ok t) : t.regs = s.regs := by
  obtain ⟨-, rfl⟩ := free_ok h
  rfl

theorem memWrite_regs {id off : Nat} {v : Word} (h : memWrite id off v s = .ok t) :
    t.regs = s.regs := by
  obtain ⟨g, -, -, rfl⟩ := memWrite_ok h
  rfl

theorem replaceZero_regs {id : Nat} (h : replaceZero id s = .ok t) : t.regs = s.regs := by
  obtain ⟨g, -, ⟨-, rfl⟩ | ⟨-, -, rfl⟩⟩ := replaceZero_ok h
  · rfl
  · rfl

theorem alloc_setReg (size : Nat) (s : State) (q : Reg) (v : Word) :
    alloc size (s.setReg q v) = (alloc size s).map fun r => (r.1, r.2.setReg q v) := by
  cases h : alloc size s with
  | error k =>
    obtain ⟨rfl, hfail⟩ := alloc_error h
    exact alloc_fails hfail
  | ok r =>
    obtain ⟨id, t⟩ := r
    obtain ⟨hcap, ⟨rest, hpool, rfl⟩ | ⟨hpool, hlimit, rfl, rfl⟩⟩ := alloc_ok h
    · exact alloc_pool hpool hcap
    · exact alloc_mint hpool hlimit hcap

theorem free_setReg (id : Nat) (s : State) (q : Reg) (v : Word) :
    free id (s.setReg q v) = (free id s).map fun t => t.setReg q v := by
  cases h : free id s with
  | error k =>
    obtain ⟨rfl, hdead⟩ := free_error h
    exact free_not_live hdead
  | ok t =>
    obtain ⟨hlive, rfl⟩ := free_ok h
    exact free_live hlive

theorem memWrite_setReg (id off : Nat) (w : Word) (s : State) (q : Reg) (v : Word) :
    memWrite id off w (s.setReg q v) = (memWrite id off w s).map fun t => t.setReg q v := by
  cases h : memWrite id off w s with
  | error k =>
    obtain ⟨rfl, hout⟩ := memWrite_error h
    exact memWrite_fails hout
  | ok t =>
    obtain ⟨g, hg, hlt, rfl⟩ := memWrite_ok h
    exact memWrite_some hg hlt

theorem replaceZero_setReg (id : Nat) (s : State) (q : Reg) (v : Word) :
    replaceZero id (s.setReg q v) = (replaceZero id s).map fun t => t.setReg q v := by
  have hlen : lenZero (s.setReg q v) = lenZero s := rfl
  simp only [replaceZero, State.setReg_segment, State.setReg_seg, State.setReg_config, hlen]
  cases s.segment id with
  | none => rfl
  | some g =>
    dsimp only
    split
    · rfl
    · split <;> rfl

@[simp] theorem memRead_setReg (id off : Nat) (s : State) (q : Reg) (v : Word) :
    memRead id off (s.setReg q v) = memRead id off s := rfl

end Manager

/-! ### The register an instruction writes -/

/-- The register file stays, or the register of the column "writes" alone gets a value. -/
def WritesListed (i : Instr) (s t : State) : Prop :=
  t.regs = s.regs ∨ ∃ r w, writes s i = some r ∧ t.regs = s.regs.set r w

theorem exec_writesListed {i : Instr} {s t : State} (h : exec i s = .next t) :
    WritesListed i s t := by
  cases i with
  | cmov a b c =>
    simp only [exec, execCmov] at h
    split at h
    · cases h; exact .inr ⟨a, _, if_pos ‹_›, rfl⟩
    · cases h; exact .inl rfl
  | sload a b c =>
    obtain ⟨w, -, hw⟩ | ⟨k, -, rfl⟩ := orRaise_next h
    · cases hw; exact .inr ⟨a, w, rfl, rfl⟩
    · exact .inl rfl
  | sstore a b c =>
    obtain ⟨u, hu, ht⟩ | ⟨k, -, rfl⟩ := orRaise_next h
    · cases ht; exact .inl (memWrite_regs hu)
    · exact .inl rfl
  | add a b c | mul a b c | nand a b c => cases h; exact .inr ⟨a, _, rfl, rfl⟩
  | div a b c =>
    simp only [exec, execDiv] at h
    split at h
    · cases h; exact .inl rfl
    · cases h; exact .inr ⟨a, _, rfl, rfl⟩
  | map b c =>
    obtain ⟨⟨id, u⟩, hu, ht⟩ | ⟨k, -, rfl⟩ := orRaise_next h
    · cases ht
      exact .inr ⟨b, _, rfl, congrArg (Regs.set · b _) (alloc_regs hu)⟩
    · exact .inl rfl
  | unmap c =>
    simp only [exec, execUnmap] at h
    split at h
    · cases h; exact .inl rfl
    · obtain ⟨u, hu, ht⟩ | ⟨k, -, rfl⟩ := orRaise_next h
      · cases ht; exact .inl (free_regs hu)
      · exact .inl rfl
  | out c =>
    simp only [exec, execOut] at h
    split at h
    · cases h; exact .inl rfl
    · cases h; exact .inl rfl
  | inp c =>
    simp only [exec, execInp] at h
    obtain ⟨-, hin⟩ | ⟨b, rest, -, hin⟩ := inByte_cases s
    · rw [hin] at h; cases h; exact .inr ⟨c, _, rfl, rfl⟩
    · rw [hin] at h; cases h; exact .inr ⟨c, _, rfl, rfl⟩
  | loadprog b c =>
    simp only [exec, execLoadprog] at h
    split at h
    · obtain ⟨u, hu, ht⟩ | ⟨k, -, rfl⟩ := orRaise_next h
      · cases ht; exact .inl (replaceZero_regs hu :)
      · exact .inl rfl
    · cases h; exact .inl rfl
  | loadimm A imm => cases h; exact .inr ⟨A, _, rfl, rfl⟩
  | halt | illegal14 | illegal15 => cases h; exact .inl rfl

theorem WritesListed.reg_eq {i : Instr} {s t : State} (h : WritesListed i s t) {q : Reg}
    (hq : writes s i ≠ some q) : t.reg q = s.reg q := by
  obtain hsame | ⟨r, w, hr, hset⟩ := h
  · simp only [State.reg, hsame]
  · have hne : q ≠ r := fun he => hq (he ▸ hr)
    simp only [State.reg, hset, Regs.get_set_ne _ w hne]

/-! ### The registers an instruction uses -/

/-- How the outcome `o'` of a state in which register `q` is given the value `v` compares with the
outcome `o` of `s`: the two are equal, because `q` was overwritten, or they differ in `q` alone, which
both left as it was. -/
def Undisturbed (q : Reg) (v : Word) (s : State) (o o' : Host.Outcome State Fault Refusal) : Prop :=
  ∃ t, o = .next t ∧ (o' = .next t ∨ (t.reg q = s.reg q ∧ o' = .next (t.setReg q v)))

section Undisturbed

variable {q : Reg} {v : Word} {s t : State}

theorem undisturbed_kept (h : t.regs = s.regs) :
    Undisturbed q v s (.next t) (.next (t.setReg q v)) :=
  ⟨t, rfl, .inr ⟨by simp only [State.reg, h], rfl⟩⟩

theorem undisturbed_raise (k : FaultKind) :
    Undisturbed q v s (raise k s) (raise k (s.setReg q v)) :=
  undisturbed_kept (t := { s with status := .faulted k }) rfl

/-- A write to `q` itself hides the value given; a write to another register commutes with it. -/
theorem undisturbed_setReg (h : t.regs = s.regs) (r : Reg) (w : Word) :
    Undisturbed q v s (.next (t.setReg r w)) (.next ((t.setReg q v).setReg r w)) := by
  refine ⟨_, rfl, ?_⟩
  by_cases hq : q = r
  · subst hq
    exact .inl (by simp only [State.setReg, Regs.set_set])
  · refine .inr ⟨?_, ?_⟩
    · rw [State.setReg_reg_ne t w hq, State.reg, h, State.reg]
    · simp only [State.setReg, Regs.set_comm _ _ _ hq]

theorem undisturbed_orRaise {α : Type} {x : Except FaultKind α} {f : α → α}
    {go : α → Host.Outcome State Fault Refusal}
    (h : ∀ a, x = .ok a → Undisturbed q v s (go a) (go (f a))) :
    Undisturbed q v s (orRaise x s go) (orRaise (x.map f) (s.setReg q v) go) := by
  cases x with
  | ok a => exact h a rfl
  | error k => exact undisturbed_raise k

/-- Giving a value to a register the column "uses" does not list disturbs no instruction: the operands
read the same, and every operation commutes with the write. -/
theorem exec_undisturbed {i : Instr} (hq : q ∉ uses i) :
    Undisturbed q v s (exec i s) (exec i (s.setReg q v)) := by
  have hreg : ∀ r ∈ uses i, (s.setReg q v).reg r = s.reg r := fun r hr =>
    State.setReg_reg_ne s v fun he => hq (he ▸ hr)
  cases i <;>
    simp only [uses, List.mem_cons, List.not_mem_nil, or_false, forall_eq_or_imp, forall_eq] at hreg
  case cmov a b c =>
    simp only [exec, execCmov, hreg]
    split
    · exact undisturbed_setReg rfl a _
    · exact undisturbed_kept rfl
  case sload a b c =>
    simp only [exec, execSload, hreg, memRead_setReg]
    cases memRead (s.reg b).toNat (s.reg c).toNat s with
    | ok w => exact undisturbed_setReg rfl a w
    | error k => exact undisturbed_raise k
  case sstore a b c =>
    simp only [exec, execSstore, hreg, memWrite_setReg]
    exact undisturbed_orRaise fun t ht => undisturbed_kept (memWrite_regs ht)
  case add a b c | mul a b c | nand a b c =>
    simp only [exec, execAdd, execMul, execNand, hreg]
    exact undisturbed_setReg rfl a _
  case div a b c =>
    simp only [exec, execDiv, hreg]
    split
    · exact undisturbed_raise _
    · exact undisturbed_setReg rfl a _
  case halt => exact undisturbed_kept (t := { s with status := .halted }) rfl
  case map b c =>
    simp only [exec, execMap, hreg, alloc_setReg]
    exact undisturbed_orRaise fun r hr => undisturbed_setReg (alloc_regs hr) b _
  case unmap c =>
    simp only [exec, execUnmap, hreg, free_setReg]
    split
    · exact undisturbed_raise _
    · exact undisturbed_orRaise fun t ht => undisturbed_kept (free_regs ht)
  case out c =>
    simp only [exec, execOut, hreg]
    split
    · exact undisturbed_raise _
    · exact undisturbed_kept (t := outByte _ s) rfl
  case inp c =>
    simp only [exec, execInp, inByte, State.setReg_input]
    cases s.input with
    | nil => exact undisturbed_setReg rfl c _
    | cons b rest => exact undisturbed_setReg (t := { s with input := rest }) rfl c _
  case loadprog b c =>
    simp only [exec, execLoadprog, hreg, replaceZero_setReg]
    split
    · exact undisturbed_orRaise fun t ht =>
        undisturbed_kept (t := { t with pc := s.reg c }) (replaceZero_regs ht :)
    · exact undisturbed_kept (t := { s with pc := s.reg c }) rfl
  case loadimm A imm => exact undisturbed_setReg rfl A _
  case illegal14 | illegal15 => exact undisturbed_raise _

end Undisturbed

/-- Settles O11: `exec_writesListed` is the column "writes", `exec_undisturbed` the column "uses". -/
theorem registersReadAndWrittenAreThoseListed :
    Obligations.RegistersReadAndWrittenAreThoseListed := by
  refine ⟨fun i s t h q hq => (exec_writesListed h).reg_eq hq, fun i s q v hq => ?_⟩
  obtain ⟨t, ht, hu | ⟨hkept, hu⟩⟩ := exec_undisturbed (v := v) (s := s) hq
  · exact ⟨t, t, ht, hu, fun _ _ => rfl, .inl rfl, rfl, rfl, rfl, rfl, rfl, rfl, rfl, rfl⟩
  · exact ⟨t, t.setReg q v, ht, hu, fun r hr => State.setReg_reg_ne t v hr,
      .inr ⟨State.setReg_reg_self t q v, hkept⟩, rfl, rfl, rfl, rfl, rfl, rfl, rfl, rfl⟩

end Sys2Proof.Proofs
end

section
/-! PROOFS. The state construction gives (10_state.md R38). -/

namespace Sys2Proof.Proofs

open Sys2Proof.Machine

variable {program : List Word} {input : List Byte} {config : Config} {s : State}

theorem construct_admits (input : List Byte) (config : Config)
    (h : program.length ≤ maxProgramWords) : ∃ s, construct program input config = .ok s :=
  ⟨_, if_neg (Nat.not_lt.mpr h)⟩

theorem construct_refuses (input : List Byte) (config : Config)
    (h : maxProgramWords < program.length) :
    construct program input config = .error .programTooLong := if_pos h

theorem construct_segment_zero (h : construct program input config = .ok s) :
    s.segment 0 = some (Segment.ofWords program) := by
  obtain ⟨-, rfl⟩ := construct_ok h
  rfl

theorem construct_live_ne_zero (h : construct program input config = .ok s) {id : Nat}
    (hid : id ≠ 0) : s.live id = false := by
  obtain ⟨-, rfl⟩ := construct_ok h
  simp [not_live_iff, segment_eq_find, Table.find, hid.symm]

theorem construct_segLen_zero (h : construct program input config = .ok s) :
    segLen 0 s = .ok program.length := by
  simp [segLen, construct_segment_zero h]

theorem construct_memRead_zero (h : construct program input config = .ok s) {k : Nat}
    (hk : k < program.length) : memRead 0 k s = .ok program[k] := by
  rw [memRead_some (construct_segment_zero h) hk, Segment.ofWords_wordAt program k hk]

theorem construct_reg (h : construct program input config = .ok s) (r : Reg) : s.reg r = 0 := by
  obtain ⟨-, rfl⟩ := construct_ok h
  cases r <;> rfl

/-- Settles O29, from the lemmas on segment 0 and the registers of a constructed state; the other
fields are those `construct_ok` shows. -/
theorem constructionGivesTheTableOfInitialValues :
    Obligations.ConstructionGivesTheTableOfInitialValues := by
  intro program input config
  refine ⟨fun hlen => ?_, fun hlen => ⟨_, construct_refuses input config ?_⟩⟩
  · obtain ⟨s, h⟩ := construct_admits input config hlen
    refine ⟨s, h, construct_reg h, ?_, ?_, construct_segLen_zero h,
      fun k hk => construct_memRead_zero h hk, fun id hid => construct_live_ne_zero h hid, ?_⟩
    all_goals obtain ⟨-, rfl⟩ := construct_ok h
    · rfl
    · rfl
    · exact ⟨rfl, rfl, rfl, rfl, rfl⟩
  · simp only [maxProgramWords]
    omega

end Sys2Proof.Proofs
end

section
/-! PROOFS. The memory manager's operations, one at a time (20_memory.md R45 to R50). -/

namespace Sys2Proof.Proofs

open Sys2Proof.Machine Sys2Proof.Claims

variable {s t : State} {id : Nat}

/-! ### Reading through the segment table -/

theorem segment_of_seg_put {g : Segment} (h : t.seg = Table.put s.seg id g) (i : Nat) :
    t.segment i = if i = id then some g else s.segment i := by
  simp only [segment_eq_find, h, Table.find_put]

theorem segment_of_seg_erase (h : t.seg = Table.erase s.seg id) (i : Nat) :
    t.segment i = if i = id then none else s.segment i := by
  simp only [segment_eq_find, h, Table.find_erase]

/-- `MemRead` looks at the segment of the id alone. -/
theorem memRead_congr {i j : Nat} (h : t.segment i = s.segment j) (off : Nat) :
    memRead i off t = memRead j off s := by
  simp only [memRead, h]

theorem segLen_some {g : Segment} (h : s.segment id = some g) : segLen id s = .ok g.len := by
  simp only [segLen, h]

theorem segLen_congr {i j : Nat} (h : t.segment i = s.segment j) : segLen i t = segLen j s := by
  simp only [segLen, h]

theorem len_le_of_not_inBounds {off : Nat} (h : ¬ InBounds s id off) (g : Segment)
    (hg : s.segment id = some g) : g.len ≤ off :=
  Nat.not_lt.mp fun hlt => h ⟨g, hg, hlt⟩

/-! ### MemWrite -/

section MemWrite

variable {off : Nat} {v : Word}

theorem memWrite_inBounds (v : Word) (h : InBounds s id off) :
    ∃ t, memWrite id off v s = .ok t := by
  obtain ⟨g, hg, hlt⟩ := h
  exact ⟨_, memWrite_some hg hlt⟩

theorem memWrite_segment_self (h : memWrite id off v s = .ok t) :
    ∃ g, s.segment id = some g ∧ off < g.len ∧ t.segment id = some (g.store off v) := by
  obtain ⟨g, hg, hlt, rfl⟩ := memWrite_ok h
  exact ⟨g, hg, hlt, by rw [segment_of_seg_put rfl, if_pos rfl]⟩

theorem memWrite_segment_ne (h : memWrite id off v s = .ok t) {i : Nat} (hi : i ≠ id) :
    t.segment i = s.segment i := by
  obtain ⟨g, -, -, rfl⟩ := memWrite_ok h
  rw [segment_of_seg_put rfl, if_neg hi]

theorem memRead_memWrite_self (h : memWrite id off v s = .ok t) : memRead id off t = .ok v := by
  obtain ⟨g, -, hlt, ht⟩ := memWrite_segment_self h
  rw [memRead_some ht hlt, Segment.wordAt_store, if_pos rfl]

theorem memRead_memWrite_ne (h : memWrite id off v s = .ok t) {i o : Nat} (hne : i ≠ id ∨ o ≠ off) :
    memRead i o t = memRead i o s := by
  by_cases hi : i = id
  · subst hi
    have ho : o ≠ off := hne.resolve_left (not_not_intro rfl)
    obtain ⟨g, hg, -, ht⟩ := memWrite_segment_self h
    simp only [memRead, hg, ht, Segment.store_len, Segment.wordAt_store, if_neg ho]
  · exact memRead_congr (memWrite_segment_ne h hi) o

theorem segLen_memWrite (h : memWrite id off v s = .ok t) (i : Nat) : segLen i t = segLen i s := by
  by_cases hi : i = id
  · subst hi
    obtain ⟨g, hg, -, ht⟩ := memWrite_segment_self h
    rw [segLen_some ht, segLen_some hg, Segment.store_len]
  · exact segLen_congr (memWrite_segment_ne h hi)

theorem memWrite_frame (h : memWrite id off v s = .ok t) :
    KeepsRegs s t ∧ KeepsIds s t ∧ KeepsStreams s t ∧ KeepsControl s t ∧ KeepsConfig s t := by
  obtain ⟨g, -, -, rfl⟩ := memWrite_ok h
  exact ⟨fun _ => rfl, ⟨rfl, rfl⟩, ⟨rfl, rfl⟩, ⟨rfl, rfl⟩, rfl⟩

end MemWrite

/-- Settles O22: an address out of bounds meets the failing lemmas of `MemRead` and `MemWrite`, one
in bounds is written, and the lemmas on `MemWrite` say what each later read gives. -/
theorem wordsAreReadBackAsWritten : Obligations.WordsAreReadBackAsWritten := by
  refine ⟨fun s id off h => memRead_fails (len_le_of_not_inBounds h),
    fun s id off g hg hlt => memRead_some hg hlt,
    fun s id off v h => memWrite_fails (len_le_of_not_inBounds h), fun s id off v h => ?_⟩
  obtain ⟨t, ht⟩ := memWrite_inBounds v h
  exact ⟨t, ht, memRead_memWrite_self ht, fun i o => memRead_memWrite_ne ht, segLen_memWrite ht,
    memWrite_frame ht⟩

/-! ### The capacity -/

/-- Spells `withinCapacity` out; the right side is what `Fits` says of a state's configuration. -/
theorem withinCapacity_iff {c : Config} {total : Nat} :
    withinCapacity c total = true ↔ ∀ most, c.memWordsMax = some most → total ≤ most := by
  cases h : c.memWordsMax <;> simp [withinCapacity, h]

theorem withinCapacity_of_fits {total : Nat} (h : Fits s total) :
    withinCapacity s.config total = true := withinCapacity_iff.mpr h

theorem not_withinCapacity_of_not_fits {total : Nat} (h : ¬ Fits s total) :
    withinCapacity s.config total = false :=
  Bool.eq_false_iff.mpr fun hc => h (withinCapacity_iff.mp hc)

theorem zeroLen_eq_lenZero (s : State) : zeroLen s = lenZero s := by
  unfold zeroLen lenZero
  cases s.segment 0 <;> rfl

/-! ### Alloc -/

section Alloc

variable {size : Nat}

theorem alloc_fresh (hleft : ¬ NoIdLeft s) (hfit : Fits s (liveWords s + size)) :
    ∃ t, alloc size s = .ok (nextFresh s, t) := by
  have hcap : withinCapacity s.config (wordsLive s.seg + size) = true := withinCapacity_of_fits hfit
  unfold nextFresh
  cases hp : s.pool with
  | nil => exact ⟨_, alloc_mint hp (fun hn => hleft ⟨hp, hn⟩) hcap⟩
  | cons id rest => exact ⟨_, alloc_pool hp hcap⟩

theorem alloc_refused (h : NoIdLeft s ∨ ¬ Fits s (liveWords s + size)) :
    alloc size s = .error .allocationFailure :=
  alloc_fails (h.imp_right not_withinCapacity_of_not_fits)

theorem alloc_seg (h : alloc size s = .ok (id, t)) :
    t.seg = Table.put s.seg id (Segment.zeros size) := by
  obtain ⟨-, ⟨rest, -, rfl⟩ | ⟨-, -, rfl, rfl⟩⟩ := alloc_ok h
  · rfl
  · rfl

theorem alloc_segment_self (h : alloc size s = .ok (id, t)) :
    t.segment id = some (Segment.zeros size) := by
  rw [segment_of_seg_put (alloc_seg h), if_pos rfl]

theorem alloc_segment_ne (h : alloc size s = .ok (id, t)) {i : Nat} (hi : i ≠ id) :
    t.segment i = s.segment i := by
  rw [segment_of_seg_put (alloc_seg h), if_neg hi]

theorem alloc_pooled {rest : List Nat} (hp : s.pool = id :: rest) {i : Nat}
    (h : alloc size s = .ok (i, t)) : t.pool = rest ∧ t.nextId = s.nextId := by
  obtain ⟨-, ⟨rest', hp', rfl⟩ | ⟨hp', -⟩⟩ := alloc_ok h
  · rw [hp] at hp'; cases hp'; exact ⟨rfl, rfl⟩
  · rw [hp] at hp'; cases hp'

theorem alloc_minted (hp : s.pool = []) (h : alloc size s = .ok (id, t)) :
    t.pool = [] ∧ t.nextId = s.nextId + 1 := by
  obtain ⟨-, ⟨rest, hp', -⟩ | ⟨-, -, -, rfl⟩⟩ := alloc_ok h
  · rw [hp] at hp'; cases hp'
  · exact ⟨hp, rfl⟩

theorem alloc_frame (h : alloc size s = .ok (id, t)) :
    KeepsRegs s t ∧ KeepsStreams s t ∧ KeepsControl s t ∧ KeepsConfig s t := by
  obtain ⟨-, ⟨rest, -, rfl⟩ | ⟨-, -, -, rfl⟩⟩ := alloc_ok h
  · exact ⟨fun _ => rfl, ⟨rfl, rfl⟩, ⟨rfl, rfl⟩, rfl⟩
  · exact ⟨fun _ => rfl, ⟨rfl, rfl⟩, ⟨rfl, rfl⟩, rfl⟩

end Alloc

/-- Settles O23, from the lemmas on `Alloc`: it is refused, or takes the next fresh id. -/
theorem allocReusesTheLastFreedIdOrMintsTheNext :
    Obligations.AllocReusesTheLastFreedIdOrMintsTheNext := by
  intro s size
  refine ⟨alloc_refused, fun hleft hfit => ?_⟩
  obtain ⟨t, ht⟩ := alloc_fresh hleft hfit
  have hself := alloc_segment_self ht
  exact ⟨t, ht, ⟨_, hself, rfl, fun off hoff => memRead_some hself hoff⟩,
    fun i hi => alloc_segment_ne ht hi, fun id rest hp => alloc_pooled hp ht,
    fun hp => alloc_minted hp ht, alloc_frame ht⟩

/-! ### Free -/

theorem free_segment (h : free id s = .ok t) (i : Nat) :
    t.segment i = if i = id then none else s.segment i := by
  obtain ⟨-, rfl⟩ := free_ok h
  exact segment_of_seg_erase rfl i

theorem free_twice (h : free id s = .ok t) : free id t = .error .memoryFault :=
  free_not_live (not_live_iff.mpr ((free_segment h id).trans (if_pos rfl)))

theorem free_ids (h : free id s = .ok t) : t.pool = id :: s.pool ∧ t.nextId = s.nextId := by
  obtain ⟨-, rfl⟩ := free_ok h
  exact ⟨rfl, rfl⟩

theorem free_frame (h : free id s = .ok t) :
    KeepsRegs s t ∧ KeepsStreams s t ∧ KeepsControl s t ∧ KeepsConfig s t := by
  obtain ⟨-, rfl⟩ := free_ok h
  exact ⟨fun _ => rfl, ⟨rfl, rfl⟩, ⟨rfl, rfl⟩, rfl⟩

/-- Settles O24, from the lemmas on `Free`. -/
theorem freeUnbindsAnIdAndPushesItOnThePool : Obligations.FreeUnbindsAnIdAndPushesItOnThePool := by
  intro s id
  refine ⟨fun hnone => free_not_live (not_live_iff.mpr hnone), fun g hg => ?_⟩
  have ht := free_live (live_iff.mpr ⟨g, hg⟩)
  obtain ⟨hpool, hnext⟩ := free_ids ht
  exact ⟨_, ht, (free_segment ht id).trans (if_pos rfl), hpool,
    fun i hi => (free_segment ht i).trans (if_neg hi), hnext, free_twice ht, free_frame ht⟩

/-! ### ReplaceZero -/

section ReplaceZero

variable {g : Segment}

theorem replaceZero_not_live (h : s.segment id = none) :
    replaceZero id s = .error .memoryFault := by
  simp only [replaceZero, h]

theorem replaceZero_zero (hg : s.segment 0 = some g) : replaceZero 0 s = .ok s := by
  simp only [replaceZero, hg, if_true]

theorem replaceZero_no_room (hg : s.segment id = some g) (h0 : id ≠ 0)
    (h : ¬ Fits s (liveWords s - zeroLen s + g.len)) :
    replaceZero id s = .error .allocationFailure := by
  have hcap : withinCapacity s.config (wordsLive s.seg - lenZero s + g.len) = false :=
    not_withinCapacity_of_not_fits (zeroLen_eq_lenZero s ▸ h)
  simp [replaceZero, hg, h0, hcap]

theorem replaceZero_fits (hg : s.segment id = some g) (h0 : id ≠ 0)
    (h : Fits s (liveWords s - zeroLen s + g.len)) :
    replaceZero id s = .ok { s with seg := Table.put s.seg 0 g } :=
  replaceZero_copies hg h0 (withinCapacity_of_fits (zeroLen_eq_lenZero s ▸ h))

end ReplaceZero

/-- Settles O25. The copy is a value bound to id 0, so reads of 0 are reads of the segment copied,
and since the ids differ a later write to one leaves the other (`memRead_memWrite_ne`). -/
theorem replaceZeroCopiesASegmentOverSegmentZero :
    Obligations.ReplaceZeroCopiesASegmentOverSegmentZero := by
  intro s id
  refine ⟨replaceZero_not_live, fun g hg => ⟨?_, replaceZero_no_room hg, fun h0 hfit => ?_⟩⟩
  · rintro rfl
    exact replaceZero_zero hg
  · have hzero : ({ s with seg := Table.put s.seg 0 g } : State).segment 0 = some g := by
      rw [segment_of_seg_put rfl, if_pos rfl]
    have hcopy := hzero.trans hg.symm
    exact ⟨_, replaceZero_fits hg h0 hfit, hzero, segLen_congr hcopy, memRead_congr hcopy,
      fun i hi => (segment_of_seg_put rfl i).trans (if_neg hi),
      fun off v u hu o => memRead_memWrite_ne hu (.inl h0.symm),
      fun off v u hu o => memRead_memWrite_ne hu (.inl h0),
      fun _ => rfl, ⟨rfl, rfl⟩, ⟨rfl, rfl⟩, ⟨rfl, rfl⟩, rfl⟩

end Sys2Proof.Proofs
end

section
/-! PROOFS. Sequences of allocations and frees (20_memory.md R55). -/

namespace Sys2Proof.Proofs

open Sys2Proof.Machine Sys2Proof.Claims

variable {s t : State}

/-! ### Room: how many more words fit -/

/-- `n` more words fit beside those that are live. -/
def Room (s : State) (n : Nat) : Prop := Fits s (liveWords s + n)

theorem Room.of_le {m n : Nat} (h : Room s m) (hc : t.config = s.config)
    (hle : liveWords t + n ≤ liveWords s + m) : Room t n :=
  fun most hmost => hle.trans (h most (hc ▸ hmost))

/-- Holds of any table, sorted or not; `wordsLive_put` is the exact count of a sorted one. -/
theorem wordsLive_put_le (m : Memory) (id : Nat) (g : Segment) :
    wordsLive (Table.put m id g) ≤ wordsLive m + g.len := by
  induction m with
  | nil => simp [Table.put]
  | cons p m ih =>
    obtain ⟨k, h⟩ := p
    simp only [Table.put]
    split
    · simp only [wordsLive_cons]; omega
    · split
      · simp only [wordsLive_cons]; omega
      · simp only [wordsLive_cons]; omega

theorem Room.alloc {size n id : Nat} (h : Room s (size + n)) (ht : alloc size s = .ok (id, t)) :
    Room t n := by
  obtain ⟨-, -, -, hc⟩ := alloc_frame ht
  have hle : liveWords t ≤ liveWords s + size :=
    (congrArg wordsLive (alloc_seg ht)).trans_le (wordsLive_put_le _ _ _)
  exact h.of_le hc (by omega)

theorem Room.free {n id : Nat} (h : Room s n) (ht : free id s = .ok t) : Room t n := by
  obtain ⟨-, rfl⟩ := free_ok ht
  exact h.of_le rfl (Nat.add_le_add_right (wordsLive_erase_le s.seg id) n)

/-! ### Allocating a sequence of sizes -/

theorem allocAll_cons {size id : Nat} {sizes ids : List Nat} {u : State}
    (h : alloc size s = .ok (id, t)) (hs : allocAll sizes t = some (ids, u)) :
    allocAll (size :: sizes) s = some (id :: ids, u) := by
  simp only [allocAll, h, hs]

theorem allocAll_cons_some {size : Nat} {sizes ids : List Nat}
    (h : allocAll (size :: sizes) s = some (ids, t)) :
    ∃ id u rest, alloc size s = .ok (id, u) ∧ allocAll sizes u = some (rest, t) ∧
      ids = id :: rest := by
  simp only [allocAll] at h
  split at h
  · rename_i id u hu
    split at h
    · rename_i rest t' ht
      cases h
      exact ⟨id, u, rest, hu, ht, rfl⟩
    · cases h
  · cases h

/-- The next `k` ids: those of the pool from its top, then the next sequential ones. -/
def freshIds (s : State) (k : Nat) : List Nat :=
  s.pool.take k ++ List.range' s.nextId (k - s.pool.length)

theorem freshIds_succ {size k : Nat} (h : alloc size s = .ok (nextFresh s, t)) :
    freshIds s (k + 1) = nextFresh s :: freshIds t k := by
  unfold freshIds nextFresh
  cases hp : s.pool with
  | nil =>
    obtain ⟨hpool, hnext⟩ := alloc_minted hp h
    simp [hpool, hnext, List.range'_succ]
  | cons id rest =>
    obtain ⟨hpool, hnext⟩ := alloc_pooled hp h
    simp [hpool, hnext]

theorem alloc_ids {size id : Nat} (h : alloc size s = .ok (id, t)) :
    t.pool = s.pool.tail ∧ t.nextId = s.nextId + (1 - s.pool.length) := by
  cases hp : s.pool with
  | nil => exact alloc_minted hp h
  | cons i rest => simpa using alloc_pooled hp h

/-- With room for the words and enough ids, a sequence of allocations takes the next fresh ids. -/
theorem allocAll_freshIds (n : Nat) {sizes : List Nat} (hroom : Room s (sizes.sum + n))
    (hids : s.nextId + (sizes.length - s.pool.length) ≤ 2 ^ 32) :
    ∃ t, allocAll sizes s = some (freshIds s sizes.length, t) ∧
      t.pool = s.pool.drop sizes.length ∧
      t.nextId = s.nextId + (sizes.length - s.pool.length) ∧ Room t n := by
  induction sizes generalizing s with
  | nil => exact ⟨s, by simp [allocAll, freshIds], rfl, by simp, by simpa using hroom⟩
  | cons size sizes ih =>
    simp only [List.sum_cons, List.length_cons, Nat.add_assoc] at hroom hids ⊢
    have hleft : ¬ NoIdLeft s := fun ⟨hp, hn⟩ => by simp [hp, hn] at hids
    have hfit : Room s size := hroom.of_le rfl (by omega)
    obtain ⟨t, ht⟩ := alloc_fresh hleft hfit
    obtain ⟨htpool, htnext⟩ := alloc_ids ht
    have hminted : t.nextId + (sizes.length - t.pool.length) =
        s.nextId + (sizes.length + 1 - s.pool.length) := by
      rw [htnext, htpool, List.length_tail]; omega
    obtain ⟨u, hu, hupool, hunext, hroomU⟩ := ih (hroom.alloc ht) (hminted.trans_le hids)
    refine ⟨u, ?_, ?_, hunext.trans hminted, hroomU⟩
    · rw [freshIds_succ ht, allocAll_cons ht hu]
    · rw [hupool, htpool, List.drop_tail]

theorem alloc_live_iff {size id : Nat} (h : alloc size s = .ok (id, t)) (i : Nat) :
    t.live i = true ↔ i = id ∨ s.live i = true := by
  by_cases hi : i = id
  · subst hi
    simp [State.live, alloc_segment_self h]
  · simp [State.live, alloc_segment_ne h hi, hi]

theorem allocAll_live_iff {sizes ids : List Nat} (h : allocAll sizes s = some (ids, t)) (i : Nat) :
    t.live i = true ↔ i ∈ ids ∨ s.live i = true := by
  induction sizes generalizing s ids with
  | nil => cases h; simp
  | cons size sizes ih =>
    obtain ⟨id, u, rest, hu, ht, rfl⟩ := allocAll_cons_some h
    rw [ih ht, alloc_live_iff hu, List.mem_cons, ← or_assoc, or_comm (a := i ∈ rest)]

/-! ### Freeing a sequence of ids -/

theorem free_live_iff {id : Nat} (h : free id s = .ok t) (i : Nat) :
    t.live i = true ↔ i ≠ id ∧ s.live i = true := by
  by_cases hi : i = id <;> simp [State.live, free_segment h, hi]

theorem freeAll_cons {id : Nat} {ids : List Nat} (h : free id s = .ok t) :
    freeAll (id :: ids) s = freeAll ids t := by
  simp only [freeAll, h]

/-- Distinct live ids can be freed one after the other; the last one freed is on top of the pool. -/
theorem freeAll_live {n : Nat} {ids : List Nat} (hdistinct : ids.Nodup)
    (hlive : ∀ i ∈ ids, s.live i = true) (hroom : Room s n) :
    ∃ t, freeAll ids s = some t ∧ t.pool = ids.reverse ++ s.pool ∧ t.nextId = s.nextId ∧
      Room t n := by
  induction ids generalizing s with
  | nil => exact ⟨s, rfl, rfl, rfl, hroom⟩
  | cons id ids ih =>
    obtain ⟨hnotMem, hdistinct⟩ := List.nodup_cons.mp hdistinct
    obtain ⟨hid, hlive⟩ := List.forall_mem_cons.mp hlive
    have ht := free_live hid
    obtain ⟨htpool, htnext⟩ := free_ids ht
    have hliveT := fun i hi =>
      (free_live_iff ht i).mpr ⟨fun he => hnotMem (he ▸ hi), hlive i hi⟩
    obtain ⟨u, hu, hupool, hunext, hroomU⟩ := ih hdistinct hliveT (hroom.free ht)
    refine ⟨u, (freeAll_cons ht).trans hu, ?_, hunext.trans htnext, hroomU⟩
    rw [hupool, htpool, List.reverse_cons, List.append_assoc, List.singleton_append]

/-- Settles O27: by `allocAll_freshIds` three allocations from an empty pool mint three ids, by
`freeAll_live` freeing two of them puts those on the pool, and by `allocAll_freshIds` again the next
three take the two off the pool and mint one. -/
theorem theWorkedReuseOrder : Obligations.TheWorkedReuseOrder := by
  intro s z1 z2 z3 z4 z5 z6 hfit hpool hnext
  have hroom : Room s ([z1, z2, z3].sum + ([z4, z5, z6].sum + 0)) := by
    simpa [Room, Nat.add_assoc] using hfit
  obtain ⟨t, ht, htpool, htnext, hroomT⟩ := allocAll_freshIds _ hroom (by simp [hpool]; omega)
  have hids : freshIds s [z1, z2, z3].length = [s.nextId, s.nextId + 1, s.nextId + 2] := by
    simp [freshIds, hpool, List.range'_succ]
  rw [hids] at ht
  replace htpool : t.pool = [] := by rw [htpool, hpool, List.drop_nil]
  replace htnext : t.nextId = s.nextId + 3 := by simpa [hpool] using htnext
  have hlive : ∀ i ∈ [s.nextId + 1, s.nextId], t.live i = true := fun i hi =>
    (allocAll_live_iff ht i).mpr (.inl (by simp at hi ⊢; omega))
  obtain ⟨u, hu, hupool, hunext, hroomU⟩ := freeAll_live (by simp) hlive hroomT
  replace hupool : u.pool = [s.nextId, s.nextId + 1] := by simpa [htpool] using hupool
  obtain ⟨v, hv, -⟩ := allocAll_freshIds 0 hroomU (by simp [hupool, hunext, htnext]; omega)
  have hreused : freshIds u [z4, z5, z6].length = [s.nextId, s.nextId + 1, s.nextId + 3] := by
    simp [freshIds, hupool, hunext, htnext]
  rw [hreused] at hv
  exact ⟨t, u, v, ht, htnext, hu, hupool, hv⟩

end Sys2Proof.Proofs
end

section
/-! PROOFS. Fetch sees every store (20_memory.md R61). -/

namespace Sys2Proof.Proofs

open Sys2Proof.Machine Sys2Proof.Claims

variable {s t : State} {a b c : Reg}

theorem toNat_reg_eq_zero {r : Reg} (h : s.reg r = 0) : (s.reg r).toNat = 0 := by
  rw [h]; rfl

theorem exec_sstore_inBounds (h : exec (.sstore a b c) s = .next t)
    (hb : InBounds s (s.reg a).toNat (s.reg b).toNat) :
    memWrite (s.reg a).toNat (s.reg b).toNat (s.reg c) s = .ok t := by
  obtain ⟨u, hu⟩ := memWrite_inBounds (s.reg c) hb
  simp only [exec, execSstore, hu, orRaise_ok] at h
  cases h
  exact hu

theorem exec_sstore_zero (h : exec (.sstore a b c) s = .next t) (ha : s.reg a = 0)
    (hb : InBounds s 0 (s.reg b).toNat) : memWrite 0 (s.reg b).toNat (s.reg c) s = .ok t := by
  have hzero := toNat_reg_eq_zero ha
  exact hzero ▸ exec_sstore_inBounds h (hzero.symm ▸ hb)

/-- A word written to segment 0 is the word fetched at its index, whatever else differs. -/
theorem fetch_memWrite {pc v : Word} {u : State} (h : memWrite 0 pc.toNat v s = .ok t)
    (hseg : u.segment 0 = t.segment 0) (hpc : u.pc = pc) : fetch u = .ok v := by
  rw [fetch, hpc, memRead_congr hseg, memRead_memWrite_self h]

theorem exec_loadprog_fits {g : Segment} (h : exec (.loadprog b c) s = .next t) (h0 : s.reg b ≠ 0)
    (hg : s.segment (s.reg b).toNat = some g) (hfit : Fits s (liveWords s - zeroLen s + g.len)) :
    t = { s with seg := Table.put s.seg 0 g, pc := s.reg c } := by
  have hcopy := replaceZero_fits hg (toNat_ne_zero h0) hfit
  simp only [exec, execLoadprog, if_pos h0, hcopy, orRaise_ok] at h
  cases h
  rfl

/-- A step that runs a word fetched from segment 0. -/
theorem step_next_fetched {g : Segment} (h : step s = .next t) (hg : s.segment 0 = some g)
    (hlt : s.pc.toNat < g.len) :
    s.status = .running ∧ exec (decode (g.wordAt s.pc.toNat)) (advance s) = .next t := by
  obtain ⟨hrun, -⟩ := step_cases h
  exact ⟨hrun, (step_fetched hrun (memRead_some hg hlt)).symm.trans h⟩

/-- Settles O28: an SSTORE is a `MemWrite`, whose word `fetch_memWrite` finds again; the step after
it starts where the store wrote; a LOADPROG binds 0 to the segment loaded. -/
theorem theNextFetchSeesEveryStore : Obligations.TheNextFetchSeesEveryStore := by
  refine ⟨fun s => rfl, fun s t a b c h ha hb => fetch_memWrite (exec_sstore_zero h ha hb) rfl rfl,
    fun s t g a b c h hg hlt hdec ha hpc hb => ?_, fun s t b c g h h0 hg hfit hlt => ?_⟩
  · obtain ⟨hrun, hexec⟩ := step_next_fetched h hg hlt
    rw [hdec] at hexec
    have hwrite := exec_sstore_zero hexec ha hb
    obtain ⟨-, -, -, ⟨htpc, htstatus⟩, -⟩ := memWrite_frame hwrite
    exact step_fetched (htstatus.trans hrun) (fetch_memWrite hwrite rfl (htpc.trans hpc.symm))
  · obtain rfl := exec_loadprog_fits h h0 hg hfit
    have hzero := (segment_of_seg_put (t := { s with seg := Table.put s.seg 0 g, pc := s.reg c })
      rfl 0).trans (if_pos rfl)
    exact memRead_some hzero hlt

end Sys2Proof.Proofs
end

section
/-! PROOFS. The bits of a word that have no effect (30_encoding.md R71, R72). -/

namespace Sys2Proof.Proofs

open Sys2Proof.Machine Sys2Proof.Claims

variable {v w : Word} {op : Nat}

theorem opField_of_hasOp (h : HasOp w op) : opField w = op :=
  (field_eq_extractLsb w 31 28).trans h

/-- Two words that agree on the bits of a mask agree on every field the mask covers. -/
theorem field_congr_of_mask {mask : Word} {hi lo : Nat} (h : (v ^^^ w) &&& mask = 0)
    (hcover : mask.extractLsb hi lo = BitVec.allOnes _) : field v hi lo = field w hi lo := by
  have hslice : v.extractLsb hi lo ^^^ w.extractLsb hi lo = 0 :=
    calc v.extractLsb hi lo ^^^ w.extractLsb hi lo
        = ((v ^^^ w) &&& mask).extractLsb hi lo := by
          rw [BitVec.extractLsb_and, BitVec.extractLsb_xor, hcover, BitVec.and_allOnes]
      _ = 0 := by rw [h]; exact BitVec.extractLsb'_zero
  rw [field_eq_extractLsb, field_eq_extractLsb, BitVec.xor_eq_zero_iff.mp hslice]

/-! ### The fields each opcode uses (30_encoding.md R70, column "fields used") -/

/-- The opcodes whose instruction has a register in field b. -/
def UsesB (op : Nat) : Prop := op ≤ 6 ∨ op = 8 ∨ op = 12

theorem usedBits_cover_regA (h : op ≤ 6) :
    (~~~unusedBits op).extractLsb 8 6 = BitVec.allOnes 3 := by
  rw [unusedBits, if_pos h]
  decide

theorem usedBits_cover_regB (h : UsesB op) :
    (~~~unusedBits op).extractLsb 5 3 = BitVec.allOnes 3 := by
  obtain h | rfl | rfl := h
  · rw [unusedBits, if_pos h]
    decide
  · decide
  · decide

theorem usedBits_cover_regC :
    ∀ op ≤ 12, op ≠ 7 → (~~~unusedBits op).extractLsb 2 0 = BitVec.allOnes 3 := by
  decide

/-- The decoder of a three-register word reads no more than the opcode and the fields in use. -/
theorem decode_congr (hv : opField v = op) (hw : opField w = op) (hop : op ≤ 12)
    (ha : op ≤ 6 → regA v = regA w) (hb : UsesB op → regB v = regB w)
    (hc : op ≠ 7 → regC v = regC w) : decode v = decode w := by
  obtain h | rfl | rfl | rfl | rfl | rfl | rfl :
      op ≤ 6 ∨ op = 7 ∨ op = 8 ∨ op = 9 ∨ op = 10 ∨ op = 11 ∨ op = 12 := by omega
  · have hne : op ≠ 7 := by omega
    rw [decode, decode, hv, hw, ha h, hb (.inl h), hc hne]
    interval_cases op <;> rfl
  · rw [decode_halt hv, decode_halt hw]
  · rw [decode_map hv, decode_map hw, hb (.inr (.inl rfl)), hc (by decide)]
  · rw [decode_unmap hv, decode_unmap hw, hc (by decide)]
  · rw [decode_out hv, decode_out hw, hc (by decide)]
  · rw [decode_inp hv, decode_inp hw, hc (by decide)]
  · rw [decode_loadprog hv, decode_loadprog hw, hb (.inr (.inr rfl)), hc (by decide)]

theorem decode_ne_of_opcode {i : Instr} (hw : opField w = op) (hi : op < i.opcode) : decode w ≠ i := by
  rintro rfl
  rw [opcode_decode, hw] at hi
  exact hi.false

/-- Settles O3: the used bits cover every field the decoder reads, and the decoder keeps the opcode
field, which is 14 or 15 in the illegal rows. -/
theorem unusedBitsOfAWordDoNotMatter : Obligations.UnusedBitsOfAWordDoNotMatter := by
  refine ⟨fun v w op hv hw hop hagree => ?_, fun w op hw hop => ?_⟩
  · have ha (h : op ≤ 6) : regA v = regA w :=
      congrArg Reg.ofIndex (field_congr_of_mask hagree (usedBits_cover_regA h))
    have hb (h : UsesB op) : regB v = regB w :=
      congrArg Reg.ofIndex (field_congr_of_mask hagree (usedBits_cover_regB h))
    have hc (h : op ≠ 7) : regC v = regC w :=
      congrArg Reg.ofIndex (field_congr_of_mask hagree (usedBits_cover_regC op hop h))
    exact decode_congr (opField_of_hasOp hv) (opField_of_hasOp hw) hop ha hb hc
  · have hfield := opField_of_hasOp hw
    exact ⟨decode_ne_of_opcode hfield (Nat.lt_of_le_of_lt hop (by decide)),
      decode_ne_of_opcode hfield (Nat.lt_of_le_of_lt hop (by decide))⟩

end Sys2Proof.Proofs
end

section
/-! PROOFS. Fetch, and the illegal opcodes (40_cycle.md R81, R85). -/

namespace Sys2Proof.Proofs

open Sys2Proof.Machine Sys2Proof.Claims

variable {s : State} {g : Segment} {w : Word}

/-! ### The two outcomes of the fetch -/

theorem step_of_pc_lt_len (hrun : s.status = .running) (hg : s.segment 0 = some g)
    (hlt : s.pc.toNat < g.len) : step s = exec (decode (g.wordAt s.pc.toNat)) (advance s) :=
  step_fetched hrun (memRead_some hg hlt)

theorem step_of_pc_not_inBounds (hrun : s.status = .running) (h : ¬ InBounds s 0 s.pc.toNat) :
    step s = .next { s with status := .faulted .memoryFault } :=
  step_not_fetched hrun (memRead_fails (len_le_of_not_inBounds h))

/-- Settles O6, from the two outcomes of the fetch. -/
theorem aStepRunsTheDecodedInstruction : Obligations.AStepRunsTheDecodedInstruction :=
  ⟨fun _ _ => step_of_pc_lt_len, fun _ => step_of_pc_not_inBounds⟩

/-! ### The illegal rows -/

theorem exec_illegal14_raises (s : State) : Raises .illegal14 s .invalidOpcode := rfl

theorem exec_illegal15_raises (s : State) : Raises .illegal15 s .invalidOpcode := rfl

/-- The words whose opcode field is 14 or 15 are those from `14·2^28` on (30_encoding.md R73). -/
theorem opField_illegal (h : 0xE0000000 ≤ w.toNat) : opField w = 14 ∨ opField w = 15 := by
  have hlt := w.isLt
  simp only [opField, field]
  omega

theorem exec_decode_illegal (h : 0xE0000000 ≤ w.toNat) (s : State) :
    Raises (decode w) s .invalidOpcode := by
  obtain hop | hop := opField_illegal h
  · rw [decode_illegal14 hop]
    exact exec_illegal14_raises s
  · rw [decode_illegal15 hop]
    exact exec_illegal15_raises s

/-- Settles O47: each illegal row raises `InvalidOpcode`, the opcode field alone selects the row, and
a step that fetches such a word runs the row in the advanced state. -/
theorem illegalOpcodesRaiseInvalidOpcode : Obligations.IllegalOpcodesRaiseInvalidOpcode :=
  ⟨fun s => ⟨exec_illegal14_raises s, exec_illegal15_raises s⟩,
    fun _ hop => decode_illegal14 (opField_of_hasOp hop),
    fun _ hop => decode_illegal15 (opField_of_hasOp hop),
    fun s _ hrun hg hlt hword =>
      (step_of_pc_lt_len hrun hg hlt).trans (exec_decode_illegal hword (advance s))⟩

end Sys2Proof.Proofs
end

section
/-! PROOFS. Decoding and encoding from the fields of a word (30_encoding.md R66, R67). -/

namespace Sys2Proof.Proofs

open Sys2Proof.Machine Sys2Proof.Claims

variable {w : Word} {op : Nat} {a b c : Reg}

theorem regA_of_hasA (h : HasA w a) : regA w = a :=
  Reg.index_inj ((regA_index w).trans ((field_eq_extractLsb w 8 6).trans h))

theorem regB_of_hasB (h : HasB w b) : regB w = b :=
  Reg.index_inj ((regB_index w).trans ((field_eq_extractLsb w 5 3).trans h))

theorem regC_of_hasC (h : HasC w c) : regC w = c :=
  Reg.index_inj ((regC_index w).trans ((field_eq_extractLsb w 2 0).trans h))

theorem regImm_of_extractLsb (h : (w.extractLsb 27 25).toNat = a.index) : regImm w = a :=
  Reg.index_inj ((regImm_index w).trans ((field_eq_extractLsb w 27 25).trans h))

theorem immField_eq_extractLsb (w : Word) : immField w = (w.extractLsb 24 0).toNat :=
  field_eq_extractLsb w 24 0

/-- An opcode whose words decode to an instruction of their three fields does so in terms of bit
slices. -/
theorem decode_of_hasFields {instr : Reg → Reg → Reg → Instr}
    (hdecode : ∀ {w}, opField w = op → decode w = instr (regA w) (regB w) (regC w))
    (w : Word) (a b c : Reg) (hop : HasOp w op) (ha : HasA w a) (hb : HasB w b) (hc : HasC w c) :
    decode w = instr a b c := by
  rw [hdecode (opField_of_hasOp hop), regA_of_hasA ha, regB_of_hasB hb, regC_of_hasC hc]

theorem threeRegisterWord_index_toNat (hop : op < 16) (a b c : Reg) :
    (threeRegisterWord op a.index b.index c.index).toNat =
      op * 2 ^ 28 + a.index * 64 + b.index * 8 + c.index :=
  threeRegisterWord_toNat hop a.index_lt b.index_lt c.index_lt

theorem immediateWord_index_toNat (A : Reg) {imm : Nat} (h : imm < 2 ^ 25) :
    (immediateWord A.index imm).toNat = 13 * 2 ^ 28 + A.index * 2 ^ 25 + imm := by
  rw [immediateWord_toNat A.index_lt, Nat.mod_eq_of_lt h]

end Sys2Proof.Proofs
end

section
/-! PROOFS. The register and arithmetic instructions (41_alu.md). -/

namespace Sys2Proof.Proofs

open Sys2Proof.Machine Sys2Proof.Claims

variable {a b c : Reg} {s : State}

theorem setReg_onlyRegister (s : State) (r : Reg) (v : Word) : OnlyRegister r s (s.setReg r v) :=
  ⟨fun _ hq => State.setReg_reg_ne s v hq, ⟨fun id off => memRead_setReg id off s r v, rfl⟩,
    ⟨rfl, rfl⟩, ⟨rfl, rfl⟩, ⟨rfl, rfl⟩, rfl⟩

/-! ### The state each instruction answers -/

theorem exec_cmov_moves (a b : Reg) (h : s.reg c ≠ 0) :
    exec (.cmov a b c) s = .next (s.setReg a (s.reg b)) := if_pos h

theorem exec_cmov_keeps (a b : Reg) (h : s.reg c = 0) : exec (.cmov a b c) s = .next s :=
  if_neg (not_not_intro h)

theorem exec_add (a b c : Reg) (s : State) :
    exec (.add a b c) s = .next (s.setReg a (narrow ((s.reg b).toNat + (s.reg c).toNat))) := rfl

theorem exec_mul (a b c : Reg) (s : State) :
    exec (.mul a b c) s = .next (s.setReg a (narrow ((s.reg b).toNat * (s.reg c).toNat))) := rfl

theorem exec_div_divides (a b : Reg) (h : s.reg c ≠ 0) :
    exec (.div a b c) s = .next (s.setReg a (narrow ((s.reg b).toNat / (s.reg c).toNat))) := if_neg h

theorem exec_div_raises (a b : Reg) (h : s.reg c = 0) : Raises (.div a b c) s .divisionByZero :=
  if_pos h

theorem exec_nand (a b c : Reg) (s : State) :
    exec (.nand a b c) s = .next (s.setReg a (~~~(s.reg b &&& s.reg c))) := rfl

theorem exec_loadimm (A : Reg) (imm : Nat) (s : State) :
    exec (.loadimm A imm) s = .next (s.setReg A (immediateValue imm)) := rfl

/-! ### The values they write -/

theorem narrow_toNat (v : Nat) : (narrow v).toNat = v % 2 ^ 32 := BitVec.toNat_ofNat v 32

/-- The quotient of two words is in range, so narrowing it loses nothing (41_alu.md R93). -/
theorem narrow_div_toNat (x y : Word) : (narrow (x.toNat / y.toNat)).toNat = x.toNat / y.toNat := by
  rw [narrow_toNat, Nat.mod_eq_of_lt (Nat.lt_of_le_of_lt (Nat.div_le_self _ _) x.isLt)]

theorem getLsbD_nand_eq_false_iff (x y : Word) {i : Nat} (hi : i < 32) :
    (~~~(x &&& y)).getLsbD i = false ↔ x.getLsbD i = true ∧ y.getLsbD i = true := by
  simp [hi]

theorem immediateValue_toNat {imm : Nat} (h : imm < 2 ^ 25) : (immediateValue imm).toNat = imm := by
  simp only [immediateValue, immLimit, BitVec.toNat_ofNat]
  omega

/-! ### The obligations -/

/-- Settles O33: the test of `rc` decides between a write to `x[a]` and the same state. -/
theorem cmovMovesWhenTheConditionIsNotZero : Obligations.CmovMovesWhenTheConditionIsNotZero := by
  refine ⟨decode_of_hasFields decode_cmov, fun a b c => ?_, fun a b c s h => ?_,
    fun a b _ _ => exec_cmov_keeps a b⟩
  · rw [encode, Instr.opcode, threeRegisterWord_index_toNat (by decide), Nat.zero_mul, Nat.zero_add]
  · exact ⟨_, exec_cmov_moves a b h, State.setReg_reg_self s a _, setReg_onlyRegister s a _⟩

/-- Settles O34: the exact sum is narrowed and written to `x[a]`. -/
theorem addWritesTheSumModuloTwoToThe32 : Obligations.AddWritesTheSumModuloTwoToThe32 := by
  refine ⟨decode_of_hasFields decode_add, threeRegisterWord_index_toNat (by decide),
    fun a b c s => ⟨_, exec_add a b c s, ?_, setReg_onlyRegister s a _⟩⟩
  rw [State.setReg_reg_self, narrow_toNat]

/-- Settles O35: the exact product is narrowed and written to `x[a]`. -/
theorem mulWritesTheProductModuloTwoToThe32 :
    Obligations.MulWritesTheProductModuloTwoToThe32 := by
  refine ⟨decode_of_hasFields decode_mul, threeRegisterWord_index_toNat (by decide),
    fun a b c s => ⟨_, exec_mul a b c s, ?_, setReg_onlyRegister s a _⟩⟩
  rw [State.setReg_reg_self, narrow_toNat]

/-- Settles O36: the value written is the quotient of the two numbers, which narrowing keeps, and the
two bounds are those of the quotient by a positive number. -/
theorem divWritesTheUnsignedQuotientOrFaults :
    Obligations.DivWritesTheUnsignedQuotientOrFaults := by
  refine ⟨decode_of_hasFields decode_div, threeRegisterWord_index_toNat (by decide),
    fun a b c s h => ⟨_, exec_div_divides a b h, ?_, ?_, setReg_onlyRegister s a _⟩,
    fun a b _ _ => exec_div_raises a b⟩
  · rw [State.setReg_reg_self, narrow_div_toNat]
    exact Nat.div_mul_le_self _ _
  · rw [State.setReg_reg_self, narrow_div_toNat, Nat.mul_comm]
    exact Nat.lt_mul_div_succ _ (Nat.pos_of_ne_zero (toNat_ne_zero h))

/-- Settles O37: the value written is the complement of the conjunction, bit by bit. -/
theorem nandWritesTheComplementOfTheConjunction :
    Obligations.NandWritesTheComplementOfTheConjunction := by
  refine ⟨decode_of_hasFields decode_nand, threeRegisterWord_index_toNat (by decide),
    fun a b c s => ⟨_, exec_nand a b c s, fun i hi => ?_, setReg_onlyRegister s a _⟩⟩
  rw [State.setReg_reg_self]
  exact getLsbD_nand_eq_false_iff _ _ hi

/-- Settles O38: below `2^25` neither the field of the word nor the operand reduces the immediate. -/
theorem loadimmWritesTheZeroExtendedImmediate :
    Obligations.LoadimmWritesTheZeroExtendedImmediate := by
  refine ⟨fun w A hop hA => ?_, fun A _ => immediateWord_index_toNat A,
    fun A imm s h => ⟨_, exec_loadimm A imm s, ?_, setReg_onlyRegister s A _⟩⟩
  · rw [decode_loadimm (opField_of_hasOp hop), regImm_of_extractLsb hA, immField_eq_extractLsb]
  · rw [State.setReg_reg_self, immediateValue_toNat h]

end Sys2Proof.Proofs
end

section
/-! PROOFS. Segment load and store (42_segment_access.md). -/

namespace Sys2Proof.Proofs

open Sys2Proof.Machine Sys2Proof.Claims

variable {a b c : Reg} {s : State}

/-! ### SLOAD -/

theorem exec_sload_loads (a : Reg) {g : Segment} (hg : s.segment (s.reg b).toNat = some g)
    (hlt : (s.reg c).toNat < g.len) :
    exec (.sload a b c) s = .next (s.setReg a (g.wordAt (s.reg c).toNat)) := by
  rw [exec, execSload, memRead_some hg hlt, orRaise_ok]

theorem exec_sload_raises (a : Reg) (h : ¬ InBounds s (s.reg b).toNat (s.reg c).toNat) :
    Raises (.sload a b c) s .memoryFault := by
  rw [Raises, exec, execSload, memRead_fails (len_le_of_not_inBounds h), orRaise_error, raise]

/-- Settles O39: the read decides between a write of the addressed word to `x[a]` and the fault. -/
theorem sloadReadsTheAddressedWordOrFaults : Obligations.SloadReadsTheAddressedWordOrFaults :=
  ⟨decode_of_hasFields decode_sload, threeRegisterWord_index_toNat (by decide),
    fun a _ _ s _ hg hlt =>
      ⟨_, exec_sload_loads a hg hlt, State.setReg_reg_self s a _, setReg_onlyRegister s a _⟩,
    fun a _ _ _ => exec_sload_raises a⟩

/-! ### SSTORE -/

theorem exec_sstore_writes (c : Reg) (h : InBounds s (s.reg a).toNat (s.reg b).toNat) :
    ∃ t, exec (.sstore a b c) s = .next t ∧
      memWrite (s.reg a).toNat (s.reg b).toNat (s.reg c) s = .ok t := by
  obtain ⟨t, ht, -⟩ := exec_cases (.sstore a b c) s
  exact ⟨t, ht, exec_sstore_inBounds ht h⟩

theorem exec_sstore_raises (c : Reg) (h : ¬ InBounds s (s.reg a).toNat (s.reg b).toNat) :
    Raises (.sstore a b c) s .memoryFault := by
  rw [Raises, exec, execSstore, memWrite_fails (len_le_of_not_inBounds h), orRaise_error, raise]

/-- Settles O40: in bounds an SSTORE answers the state of its `MemWrite`, whose lemmas say what each
later read gives; out of bounds the `MemWrite` fails. -/
theorem sstoreWritesTheAddressedWordOrFaults :
    Obligations.SstoreWritesTheAddressedWordOrFaults := by
  refine ⟨decode_of_hasFields decode_sstore, threeRegisterWord_index_toNat (by decide),
    fun a b c s h => ?_, fun _ _ c _ => exec_sstore_raises c⟩
  obtain ⟨t, ht, hwrite⟩ := exec_sstore_writes c h
  exact ⟨t, ht, memRead_memWrite_self hwrite, fun _ _ => memRead_memWrite_ne hwrite,
    segLen_memWrite hwrite, memWrite_frame hwrite⟩

end Sys2Proof.Proofs
end

section
/-! PROOFS. Segment management (43_segment_management.md). -/

namespace Sys2Proof.Proofs

open Sys2Proof.Machine Sys2Proof.Claims

variable {b c : Reg} {s t : State}

/-! ### Words of two registers and of one register -/

theorem decode_of_hasB_hasC {op : Nat} {instr : Reg → Reg → Instr}
    (hdecode : ∀ {w}, opField w = op → decode w = instr (regB w) (regC w))
    (w : Word) (b c : Reg) (hop : HasOp w op) (hb : HasB w b) (hc : HasC w c) :
    decode w = instr b c := by
  rw [hdecode (opField_of_hasOp hop), regB_of_hasB hb, regC_of_hasC hc]

theorem decode_of_hasC {op : Nat} {instr : Reg → Instr}
    (hdecode : ∀ {w}, opField w = op → decode w = instr (regC w))
    (w : Word) (c : Reg) (hop : HasOp w op) (hc : HasC w c) : decode w = instr c := by
  rw [hdecode (opField_of_hasOp hop), regC_of_hasC hc]

theorem threeRegisterWord_regBC_toNat {op : Nat} (hop : op < 16) (b c : Reg) :
    (threeRegisterWord op 0 b.index c.index).toNat = op * 2 ^ 28 + b.index * 8 + c.index := by
  rw [threeRegisterWord_toNat hop (by decide) b.index_lt c.index_lt, Nat.zero_mul, Nat.add_zero]

theorem threeRegisterWord_regC_toNat {op : Nat} (hop : op < 16) (c : Reg) :
    (threeRegisterWord op 0 0 c.index).toNat = op * 2 ^ 28 + c.index := by
  rw [threeRegisterWord_toNat hop (by decide) (by decide) c.index_lt]
  simp only [Nat.zero_mul, Nat.add_zero]

/-! ### The id the next allocation takes, in a state that meets the invariant -/

theorem nextFresh_cases (s : State) :
    nextFresh s ∈ s.pool ∨ (s.pool = [] ∧ nextFresh s = s.nextId) := by
  unfold nextFresh
  cases s.pool with
  | nil => exact .inr ⟨rfl, rfl⟩
  | cons id rest => exact .inl List.mem_cons_self

theorem nextFresh_not_live (hinv : Inv s) : s.live (nextFresh s) = false := by
  obtain hpooled | ⟨-, hnext⟩ := nextFresh_cases s
  · exact hinv.pool_dead _ hpooled
  · refine Bool.eq_false_iff.mpr fun hlive => ?_
    have hlt : nextFresh s < s.nextId := (hinv.ids_minted _).mp (.inl hlive)
    exact hlt.ne hnext

/-- Segment 0 is live and the fresh id is not. -/
theorem nextFresh_ne_zero (hinv : Inv s) : nextFresh s ≠ 0 := fun h0 =>
  Bool.false_ne_true ((h0 ▸ nextFresh_not_live hinv).symm.trans hinv.zero_live)

theorem nextFresh_lt (hinv : Inv s) (hleft : ¬ NoIdLeft s) : nextFresh s < 2 ^ 32 := by
  obtain ⟨-, hrange⟩ := hinv.next_range
  obtain hpooled | ⟨hempty, hnext⟩ := nextFresh_cases s
  · exact ((hinv.ids_minted _).mp (.inr hpooled)).trans_le hrange
  · exact hnext ▸ lt_of_le_of_ne hrange fun hn => hleft ⟨hempty, hn⟩

/-- The id fits a register, so MAP's narrowing loses nothing. -/
theorem nextFresh_toNat (hinv : Inv s) (hleft : ¬ NoIdLeft s) :
    (BitVec.ofNat 32 (nextFresh s)).toNat = nextFresh s :=
  (narrow_toNat _).trans (Nat.mod_eq_of_lt (nextFresh_lt hinv hleft))

/-! ### MAP -/

theorem exec_map_binds (b : Reg) {id : Nat} (h : alloc (s.reg c).toNat s = .ok (id, t)) :
    exec (.map b c) s = .next (t.setReg b (BitVec.ofNat 32 id)) := by
  rw [exec, execMap, h, orRaise_ok]

theorem exec_map_raises (b : Reg) (h : NoIdLeft s ∨ ¬ Fits s (liveWords s + (s.reg c).toNat)) :
    Raises (.map b c) s .allocationFailure := by
  rw [Raises, exec, execMap, alloc_refused h, orRaise_error, raise]

theorem setReg_keepsRegsBut (h : KeepsRegs s t) (r : Reg) (v : Word) :
    KeepsRegsBut r s (t.setReg r v) := fun q hq => (State.setReg_reg_ne t v hq).trans (h q)

/-- Settles O42: MAP answers the state of its `Alloc` with the id written to `x[b]`, or raises the
fault of its `Alloc`; the lemmas on `nextFresh` say what the invariant adds. -/
theorem mapBindsAZeroedSegmentOrFaults : Obligations.MapBindsAZeroedSegmentOrFaults := by
  refine ⟨decode_of_hasB_hasC decode_map, threeRegisterWord_regBC_toNat (by decide),
    fun b c s hleft hfit => ?_, fun b _ _ => exec_map_raises b⟩
  obtain ⟨t, ht⟩ := alloc_fresh hleft hfit
  have hself := alloc_segment_self ht
  obtain ⟨hregs, hstreams, hcontrol, hconfig⟩ := alloc_frame ht
  have hreg := State.setReg_reg_self t b (BitVec.ofNat 32 (nextFresh s))
  exact ⟨_, exec_map_binds b ht, hreg,
    fun hinv => ⟨(congrArg BitVec.toNat hreg).trans (nextFresh_toNat hinv hleft),
      nextFresh_ne_zero hinv, nextFresh_not_live hinv⟩,
    segLen_some hself, fun off hoff => memRead_some hself hoff,
    fun id hid => alloc_segment_ne ht hid,
    fun id off hid => memRead_congr (alloc_segment_ne ht hid) off,
    fun id rest hp => (alloc_pooled hp ht :), fun hp => (alloc_minted hp ht :),
    setReg_keepsRegsBut hregs b _, hstreams, hcontrol, hconfig⟩

/-! ### UNMAP -/

theorem exec_unmap_frees (h0 : s.reg c ≠ 0) (h : free (s.reg c).toNat s = .ok t) :
    exec (.unmap c) s = .next t := by
  rw [exec, execUnmap, if_neg h0, h, orRaise_ok]

theorem exec_unmap_raises (h : s.reg c = 0 ∨ s.segment (s.reg c).toNat = none) :
    Raises (.unmap c) s .memoryFault := by
  rw [Raises, exec, execUnmap]
  split
  · rfl
  · rename_i h0
    have hnone : s.segment (s.reg c).toNat = none := h.resolve_left h0
    rw [free_not_live (not_live_iff.mpr hnone), orRaise_error, raise]

/-- Settles O43: UNMAP answers the state of its `Free`, in which the register still names the id and
the id is no longer live, so a second UNMAP raises the fault. -/
theorem unmapFreesALiveSegmentOrFaults : Obligations.UnmapFreesALiveSegmentOrFaults := by
  refine ⟨decode_of_hasC decode_unmap, threeRegisterWord_regC_toNat (by decide),
    fun c s g h0 hg => ?_, fun _ _ => exec_unmap_raises⟩
  have ht := free_live (live_iff.mpr ⟨g, hg⟩)
  have hdead := (free_segment ht (s.reg c).toNat).trans (if_pos rfl)
  have hkeep (id : Nat) (hid : id ≠ (s.reg c).toNat) := (free_segment ht id).trans (if_neg hid)
  obtain ⟨hpool, hnext⟩ := free_ids ht
  obtain ⟨hregs, hstreams, hcontrol, hconfig⟩ := free_frame ht
  exact ⟨_, exec_unmap_frees h0 ht, hdead, hkeep,
    fun id off hid => memRead_congr (hkeep id hid) off, hpool, hnext, hregs, hstreams,
    hcontrol, hconfig, exec_unmap_raises (.inr ((hregs c).symm ▸ hdead))⟩

end Sys2Proof.Proofs
end

section
/-! PROOFS. Output and input (44_io.md). -/

namespace Sys2Proof.Proofs

open Sys2Proof.Machine Sys2Proof.Claims

variable {c : Reg} {s t : State}

theorem keepsMemory_of_seg (h : t.seg = s.seg) : KeepsMemory s t :=
  ⟨fun id => memRead_congr (by simp only [segment_eq_find, h]), h⟩

/-! ### OUT -/

theorem exec_out_emits (h : (s.reg c).toNat ≤ 255) :
    exec (.out c) s = .next (outByte (BitVec.ofNat 8 (s.reg c).toNat) s) := if_neg h.not_gt

theorem exec_out_raises (h : 255 < (s.reg c).toNat) : Raises (.out c) s .invalidOutputValue :=
  if_pos h

/-- A value OUT accepts fits a byte, so nothing is truncated. -/
theorem outValue_toNat {v : Word} (h : v.toNat ≤ 255) : (BitVec.ofNat 8 v.toNat).toNat = v.toNat := by
  rw [BitVec.toNat_ofNat, Nat.mod_eq_of_lt (Nat.lt_succ_of_le h)]

/-- Settles O44: the test of `rc` decides between `OutByte`, which changes the output alone, and the
fault. -/
theorem outEmitsOneByteOrFaults : Obligations.OutEmitsOneByteOrFaults :=
  ⟨decode_of_hasC decode_out, threeRegisterWord_regC_toNat (by decide),
    fun _ s h => ⟨_, _, exec_out_emits h, outByte_output _ s, outValue_toNat h, outByte_input _ s,
      fun _ => rfl, keepsMemory_of_seg (outByte_seg _ s), ⟨outByte_pool _ s, outByte_nextId _ s⟩,
      ⟨outByte_pc _ s, outByte_status _ s⟩, outByte_config _ s⟩,
    fun _ _ => exec_out_raises⟩

/-! ### IN -/

theorem exec_inp_reads (c : Reg) {b : Byte} {rest : List Byte} (h : s.input = b :: rest) :
    exec (.inp c) s = .next (({ s with input := rest } : State).setReg c (byteValue b)) := by
  rw [exec, execInp, inByte, h]

theorem exec_inp_ends (c : Reg) (h : s.input = []) :
    exec (.inp c) s = .next (s.setReg c eosValue) := by
  rw [exec, execInp, inByte, h]

theorem byteValue_toNat (b : Byte) : (byteValue b).toNat = b.toNat := by
  rw [byteValue, BitVec.toNat_ofNat, Nat.mod_eq_of_lt (b.isLt.trans (by decide))]

/-- Settles O45: `InByte` decides between the byte read, zero-extended, with the rest of the input
left, and the end-of-stream value in the same state. -/
theorem inReadsOneByteOrTheEndOfStream : Obligations.InReadsOneByteOrTheEndOfStream := by
  refine ⟨decode_of_hasC decode_inp, threeRegisterWord_regC_toNat (by decide),
    fun c s b rest h => ⟨_, exec_inp_reads c h, ?_, rfl, rfl,
      setReg_keepsRegsBut (fun _ => rfl) c _, keepsMemory_of_seg rfl, ⟨rfl, rfl⟩, ⟨rfl, rfl⟩, rfl⟩,
    fun c s h => ⟨_, exec_inp_ends c h, ?_, setReg_onlyRegister s c _⟩⟩
  · rw [State.setReg_reg_self, byteValue_toNat]
  · rw [State.setReg_reg_self]
    rfl

end Sys2Proof.Proofs
end

section
/-! PROOFS. Control: LOADPROG and HALT (45_control.md). -/

namespace Sys2Proof.Proofs

open Sys2Proof.Machine Sys2Proof.Claims

variable {b c : Reg} {s t : State}

/-! ### LOADPROG -/

theorem exec_loadprog_jumps (c : Reg) (h : s.reg b = 0) :
    exec (.loadprog b c) s = .next { s with pc := s.reg c } := if_neg (not_not_intro h)

theorem exec_loadprog_loads (c : Reg) {g : Segment} (h0 : s.reg b ≠ 0)
    (hg : s.segment (s.reg b).toNat = some g) (hfit : Fits s (liveWords s - zeroLen s + g.len)) :
    exec (.loadprog b c) s = .next { s with seg := Table.put s.seg 0 g, pc := s.reg c } := by
  obtain ⟨t, ht, -⟩ := exec_cases (.loadprog b c) s
  exact ht.trans (congrArg _ (exec_loadprog_fits ht h0 hg hfit))

theorem exec_loadprog_raises (c : Reg) {k : FaultKind} (h0 : s.reg b ≠ 0)
    (h : replaceZero (s.reg b).toNat s = .error k) : Raises (.loadprog b c) s k := by
  rw [Raises, exec, execLoadprog, if_pos h0, h, orRaise_error, raise]

/-- Settles O46: the test of `rb` decides between the jump alone and `ReplaceZero`, whose copy is bound
to id 0, or whose fault is raised. -/
theorem loadprogJumpsAndReplacesTheProgramOrFaults :
    Obligations.LoadprogJumpsAndReplacesTheProgramOrFaults := by
  refine ⟨decode_of_hasB_hasC decode_loadprog, threeRegisterWord_regBC_toNat (by decide),
    fun b c s h => ⟨_, exec_loadprog_jumps c h, rfl, rfl, fun _ => rfl, keepsMemory_of_seg rfl,
      ⟨rfl, rfl⟩, ⟨rfl, rfl⟩, rfl⟩,
    fun b c s g h0 hg hfit => ?_,
    fun _ c _ h0 hnone => exec_loadprog_raises c h0 (replaceZero_not_live hnone),
    fun _ c _ _ h0 hg hfull =>
      exec_loadprog_raises c h0 (replaceZero_no_room hg (toNat_ne_zero h0) hfull)⟩
  have hsegment := segment_of_seg_put (t := { s with seg := Table.put s.seg 0 g, pc := s.reg c }) rfl
  have hzero := (hsegment 0).trans (if_pos rfl)
  have hkeep (id : Nat) (hid : id ≠ 0) := (hsegment id).trans (if_neg hid)
  exact ⟨_, exec_loadprog_loads c h0 hg hfit, rfl, rfl, hzero, memRead_congr (hzero.trans hg.symm),
    hkeep, fun id off hid => memRead_congr (hkeep id hid) off,
    fun _ => rfl, ⟨rfl, rfl⟩, ⟨rfl, rfl⟩, rfl⟩

/-! ### The status an instruction leaves -/

theorem replaceZero_status {id : Nat} (h : replaceZero id s = .ok t) : t.status = s.status := by
  obtain ⟨g, -, ⟨-, rfl⟩ | ⟨-, -, rfl⟩⟩ := replaceZero_ok h
  · rfl
  · rfl

/-- The status stays, or becomes that of a fault. -/
def KeepsStatusOrFaults (s t : State) : Prop := t.status = s.status ∨ ∃ k, t.status = .faulted k

/-- An instruction that goes on from an operation's result, where going on keeps the status. -/
theorem keepsStatusOrFaults_of_orRaise {α : Type} {r : Except FaultKind α}
    {go : α → Host.Outcome State Fault Refusal} (h : orRaise r s go = .next t)
    (hgo : ∀ a, r = .ok a → go a = .next t → t.status = s.status) : KeepsStatusOrFaults s t := by
  obtain ⟨a, ha, ht⟩ | ⟨k, -, rfl⟩ := orRaise_next h
  · exact .inl (hgo a ha ht)
  · exact .inr ⟨k, rfl⟩

theorem exec_keepsStatusOrFaults {i : Instr} (hi : i ≠ .halt) (h : exec i s = .next t) :
    KeepsStatusOrFaults s t := by
  cases i with
  | halt => exact absurd rfl hi
  | cmov a b c =>
    simp only [exec, execCmov] at h
    split at h
    · cases h; exact .inl rfl
    · cases h; exact .inl rfl
  | add | mul | nand | loadimm => cases h; exact .inl rfl
  | illegal14 | illegal15 => cases h; exact .inr ⟨_, rfl⟩
  | div a b c =>
    simp only [exec, execDiv] at h
    split at h
    · cases h; exact .inr ⟨_, rfl⟩
    · cases h; exact .inl rfl
  | sload a b c =>
    refine keepsStatusOrFaults_of_orRaise h fun v _ ht => ?_
    cases ht; rfl
  | sstore a b c =>
    refine keepsStatusOrFaults_of_orRaise h fun u hu ht => ?_
    obtain ⟨-, -, -, ⟨-, hstatus⟩, -⟩ := memWrite_frame hu
    cases ht; exact hstatus
  | map b c =>
    refine keepsStatusOrFaults_of_orRaise h fun ⟨id, u⟩ hu ht => ?_
    obtain ⟨-, -, ⟨-, hstatus⟩, -⟩ := alloc_frame hu
    cases ht; exact hstatus
  | unmap c =>
    simp only [exec, execUnmap] at h
    split at h
    · cases h; exact .inr ⟨_, rfl⟩
    · refine keepsStatusOrFaults_of_orRaise h fun u hu ht => ?_
      obtain ⟨-, -, ⟨-, hstatus⟩, -⟩ := free_frame hu
      cases ht; exact hstatus
  | out c =>
    simp only [exec, execOut] at h
    split at h
    · cases h; exact .inr ⟨_, rfl⟩
    · cases h; exact .inl rfl
  | inp c =>
    simp only [exec, execInp] at h
    obtain ⟨-, hin⟩ | ⟨b, rest, -, hin⟩ := inByte_cases s
    · rw [hin] at h; cases h; exact .inl rfl
    · rw [hin] at h; cases h; exact .inl rfl
  | loadprog b c =>
    simp only [exec, execLoadprog] at h
    split at h
    · refine keepsStatusOrFaults_of_orRaise h fun u hu ht => ?_
      cases ht; exact (replaceZero_status hu :)
    · cases h; exact .inl rfl

/-! ### HALT -/

theorem exec_halt (s : State) : exec .halt s = .next { s with status := .halted } := rfl

theorem eq_halt_of_exec_halted {i : Instr} (hrun : s.status = .running) (h : exec i s = .next t)
    (ht : t.status = .halted) : i = .halt := by
  by_contra hi
  obtain hkept | ⟨k, hfault⟩ := exec_keepsStatusOrFaults hi h
  · cases hrun.symm.trans (hkept.symm.trans ht)
  · cases hfault.symm.trans ht

theorem step_ne_next (h : s.status ≠ .running) (u : State) : step s ≠ .next u := fun hstep =>
  h (step_cases hstep).1

/-- A step into Halted did not fault in its fetch, and ran HALT. -/
theorem fetched_halt_of_step_halted (h : step s = .next t) (ht : t.status = .halted) :
    ∃ w, fetch s = .ok w ∧ decode w = .halt := by
  obtain ⟨hrun, ⟨k, -, rfl⟩ | ⟨w, hw, hexec⟩⟩ := step_cases h
  · cases ht
  · exact ⟨w, hw, eq_halt_of_exec_halted (s := advance s) hrun hexec ht⟩

/-- Settles O41: HALT sets the status alone, a stopped machine has no step, and every other instruction
keeps the status Running or faults. -/
theorem haltStopsTheMachine : Obligations.HaltStopsTheMachine := by
  refine ⟨fun w hop => decode_halt (opField_of_hasOp hop), by decide,
    fun s => ⟨_, exec_halt s, rfl, rfl, fun _ => rfl, keepsMemory_of_seg rfl, ⟨rfl, rfl⟩, ⟨rfl, rfl⟩,
      rfl, step_ne_next (by simp)⟩,
    fun s t h ht => ?_⟩
  obtain ⟨w, hw, hhalt⟩ := fetched_halt_of_step_halted h ht
  obtain ⟨g, hg, hlt, rfl⟩ := memRead_ok hw
  exact ⟨g, hg, hlt, hhalt⟩

end Sys2Proof.Proofs
end

section
/-! PROOFS. The causes of the faults (60_exceptions.md R126). -/

namespace Sys2Proof.Proofs

open Sys2Proof.Machine Sys2Proof.Claims

variable {i : Instr} {k : FaultKind} {s t : State}

/-- A listed cause raises its kind: the table's entries, one by one. -/
theorem raises_of_faultCondition (h : faultCondition s i k) : Raises i s k := by
  cases i <;> cases k <;> try exact h.elim
  case sload.memoryFault a b c => exact exec_sload_raises a h
  case sstore.memoryFault a b c => exact exec_sstore_raises c h
  case div.divisionByZero a b c => exact exec_div_raises a b h
  case map.allocationFailure b c => exact exec_map_raises b h
  case unmap.memoryFault c => exact exec_unmap_raises h
  case out.invalidOutputValue c => exact exec_out_raises h
  case loadprog.memoryFault b c =>
    obtain ⟨h0, hnone⟩ := h
    exact exec_loadprog_raises c h0 (replaceZero_not_live hnone)
  case loadprog.allocationFailure b c =>
    obtain ⟨h0, g, hg, hfull⟩ := h
    exact exec_loadprog_raises c h0 (replaceZero_no_room hg (toNat_ne_zero h0) hfull)
  case illegal14.invalidOpcode => exact exec_illegal14_raises s
  case illegal15.invalidOpcode => exact exec_illegal15_raises s

/-- Without a listed cause an instruction completes: the status it leaves is no new fault. -/
theorem exec_completes_of_no_faultCondition (hno : ∀ k, ¬ faultCondition s i k) :
    ∃ t, exec i s = .next t ∧ ∀ k, t.status = .faulted k → s.status = .faulted k := by
  cases i with
  | cmov a b c =>
    by_cases h0 : s.reg c = 0
    · exact ⟨_, exec_cmov_keeps a b h0, fun _ => id⟩
    · exact ⟨_, exec_cmov_moves a b h0, fun _ => id⟩
  | sload a b c =>
    obtain ⟨g, hg, hlt⟩ := not_not.mp (hno .memoryFault)
    exact ⟨_, exec_sload_loads a hg hlt, fun _ => id⟩
  | sstore a b c =>
    obtain ⟨t, ht, hwrite⟩ := exec_sstore_writes c (not_not.mp (hno .memoryFault))
    obtain ⟨-, -, -, ⟨-, hstatus⟩, -⟩ := memWrite_frame hwrite
    exact ⟨t, ht, fun _ => hstatus.symm.trans⟩
  | add a b c | mul a b c | nand a b c | loadimm A imm => exact ⟨_, rfl, fun _ => id⟩
  | div a b c => exact ⟨_, exec_div_divides a b (hno .divisionByZero), fun _ => id⟩
  | halt => exact ⟨_, exec_halt s, nofun⟩
  | map b c =>
    obtain ⟨hleft, hfit⟩ := not_or.mp (hno .allocationFailure)
    obtain ⟨t, ht⟩ := alloc_fresh hleft (not_not.mp hfit)
    obtain ⟨-, -, ⟨-, hstatus⟩, -⟩ := alloc_frame ht
    exact ⟨_, exec_map_binds b ht, fun _ => hstatus.symm.trans⟩
  | unmap c =>
    obtain ⟨h0, hlive⟩ := not_or.mp (hno .memoryFault)
    have ht := free_live (live_iff.mpr (Option.ne_none_iff_exists'.mp hlive))
    exact ⟨_, exec_unmap_frees h0 ht, fun _ => id⟩
  | out c => exact ⟨_, exec_out_emits (Nat.not_lt.mp (hno .invalidOutputValue)), fun _ => id⟩
  | inp c =>
    cases hin : s.input with
    | nil => exact ⟨_, exec_inp_ends c hin, fun _ => id⟩
    | cons b rest => exact ⟨_, exec_inp_reads c hin, fun _ => id⟩
  | loadprog b c =>
    by_cases h0 : s.reg b = 0
    · exact ⟨_, exec_loadprog_jumps c h0, fun _ => id⟩
    · obtain ⟨g, hg⟩ := Option.ne_none_iff_exists'.mp fun hnone => hno .memoryFault ⟨h0, hnone⟩
      have hfit := not_not.mp fun hfull => hno .allocationFailure ⟨h0, g, hg, hfull⟩
      exact ⟨_, exec_loadprog_loads c h0 hg hfit, fun _ => id⟩
  | illegal14 | illegal15 => exact (hno .invalidOpcode trivial).elim

theorem eq_of_raises (hraise : Raises i s k) (h : exec i s = .next t) :
    t = { s with status := .faulted k } := by
  cases hraise.symm.trans h
  rfl

/-- An instruction that ends in a fault it did not start in had a listed cause for it: it had some
cause, and the kind that cause raises is the only one. -/
theorem faultCondition_of_exec_faulted (hrun : s.status = .running) (h : exec i s = .next t)
    (ht : t.status = .faulted k) : faultCondition s i k := by
  by_cases hcause : ∃ k', faultCondition s i k'
  · obtain ⟨k', hk'⟩ := hcause
    obtain rfl := eq_of_raises (raises_of_faultCondition hk') h
    cases ht
    exact hk'
  · obtain ⟨u, hu, hkept⟩ := exec_completes_of_no_faultCondition (not_exists.mp hcause)
    cases hu.symm.trans h
    cases hrun.symm.trans (hkept k ht)

/-- The causes do not look at the program counter. -/
theorem faultCondition_advance : faultCondition (advance s) i k ↔ faultCondition s i k := Iff.rfl

/-- Settles O10: a fetch out of bounds answers the MemoryFault state; after the fetch a listed cause
raises its kind (`raises_of_faultCondition`), and no fault is without one
(`faultCondition_of_exec_faulted`). -/
theorem everyFaultHasItsListedCause : Obligations.EveryFaultHasItsListedCause := by
  refine ⟨fun s t k hout h => ?_, fun s t g k hg hlt h => ?_⟩
  · obtain ⟨hrun, -⟩ := step_cases h
    cases (step_of_pc_not_inBounds hrun hout).symm.trans h
    exact ⟨by rw [Status.faulted.injEq, eq_comm], rfl⟩
  · obtain ⟨hrun, hexec⟩ := step_next_fetched h hg hlt
    have hraised (hcause : faultCondition s (decode (g.wordAt s.pc.toNat)) k) :
        t = { s with pc := s.pc + 1, status := .faulted k } :=
      eq_of_raises (raises_of_faultCondition (faultCondition_advance.mpr hcause)) hexec
    have hcause (ht : t.status = .faulted k) : faultCondition s (decode (g.wordAt s.pc.toNat)) k :=
      faultCondition_advance.mp (faultCondition_of_exec_faulted (s := advance s) hrun hexec ht)
    exact ⟨⟨hcause, fun hc => congrArg State.status (hraised hc)⟩, fun ht => hraised (hcause ht)⟩

end Sys2Proof.Proofs
end

section
/-! PROOFS. The loader (70_reset_and_hazards.md R143, R144). -/

namespace Sys2Proof.Proofs

open Sys2Proof.Machine Sys2Proof.Claims

theorem imageWords_cons (b0 b1 b2 b3 : Byte) (rest : List Byte) :
    imageWords (b0 :: b1 :: b2 :: b3 :: rest) =
      (imageWords rest).map (wordOfBytes b0 b1 b2 b3 :: ·) := by
  rw [imageWords]
  cases imageWords rest with
  | ok ws => rfl
  | error e => rfl

/-- The sum stays below 2^32, so the word's number is the sum itself. -/
theorem wordOfBytes_toNat (b0 b1 b2 b3 : Byte) :
    (wordOfBytes b0 b1 b2 b3).toNat =
      b0.toNat * 2 ^ 24 + b1.toNat * 2 ^ 16 + b2.toNat * 2 ^ 8 + b3.toNat := by
  rw [wordOfBytes, BitVec.toNat_ofNat]
  have h0 := b0.isLt
  have h1 := b1.isLt
  have h2 := b2.isLt
  have h3 := b3.isLt
  exact Nat.mod_eq_of_lt (by omega)

/-- The word of the four bytes from 4k on. -/
def wordAtGroup {n : Nat} (image : List Byte) (h : image.length = 4 * n) (k : Fin n) : Word :=
  wordOfBytes image[4 * k.val] image[4 * k.val + 1] image[4 * k.val + 2] image[4 * k.val + 3]

/-- One word a group, by induction on the groups of four bytes. -/
theorem imageWords_whole {n : Nat} {image : List Byte} (h : image.length = 4 * n) :
    imageWords image = .ok (List.ofFn (wordAtGroup image h)) := by
  induction n generalizing image with
  | zero =>
    obtain rfl := List.length_eq_zero_iff.mp h
    rfl
  | succ n ih =>
    match image, h with
    | b0 :: b1 :: b2 :: b3 :: rest, h =>
      have hrest : rest.length = 4 * n := by
        simp only [List.length_cons] at h
        omega
      rw [imageWords_cons, ih hrest, List.ofFn_succ]
      rfl

/-- A partial group at the end refuses the image, whatever whole groups stand before it. -/
theorem imageWords_partial : ∀ {image : List Byte}, image.length % 4 ≠ 0 →
    imageWords image = .error .loadFailure
  | [], h => absurd rfl h
  | [_], _ | [_, _], _ | [_, _, _], _ => rfl
  | b0 :: b1 :: b2 :: b3 :: rest, h => by
    have hrest : rest.length % 4 ≠ 0 := by
      simp only [List.length_cons] at h
      omega
    rw [imageWords_cons, imageWords_partial hrest]
    rfl

/-- Settles O30: word k is the word of group k (`imageWords_whole`), and its number is the sum of its
bytes by weight (`wordOfBytes_toNat`). -/
theorem programImagesAreReadBigEndian : Obligations.ProgramImagesAreReadBigEndian := by
  intro image n h
  refine ⟨_, imageWords_whole h, List.length_ofFn, fun k hk hw => ?_⟩
  rw [List.getElem_ofFn, wordAtGroup, wordOfBytes_toNat]

/-- Settles O31: the loader passes on the refusal of the image (`imageWords_partial`), before any
machine is constructed. -/
theorem imagesWithATrailingPartialWordAreRejected :
    Obligations.ImagesWithATrailingPartialWordAreRejected := by
  intro image input config h
  rw [load, imageWords_partial h]

end Sys2Proof.Proofs
end

section
/-! PROOFS. The encoder and the decoder agree (30_encoding.md R65 to R78). -/

namespace Sys2Proof.Proofs

open Sys2Proof.Machine Sys2Proof.Claims

variable {w : Word} {op : Nat} {i : Instr}

/-! ### The decoder after the encoder -/

/-- An opcode whose words decode to an instruction of their three fields gives those fields back. -/
theorem decode_threeRegisterWord {instr : Reg → Reg → Reg → Instr}
    (hdecode : ∀ {w}, opField w = op → decode w = instr (regA w) (regB w) (regC w)) (hop : op < 16)
    (a b c : Reg) : decode (threeRegisterWord op a.index b.index c.index) = instr a b c := by
  have ha := a.index_lt
  have hb := b.index_lt
  have hc := c.index_lt
  rw [hdecode (opField_threeRegisterWord hop ha hb hc), regA_threeRegisterWord hop a hb hc,
    regB_threeRegisterWord hop b ha hc, regC_threeRegisterWord hop c ha hb]

/-- An instruction without some of the three fields encodes register 0 in their place, which has the
number 0. -/
theorem decode_encode (hwf : i.wf = true) : decode (encode i) = i := by
  cases i with
  | cmov a b c => exact decode_threeRegisterWord decode_cmov (by decide) a b c
  | sload a b c => exact decode_threeRegisterWord decode_sload (by decide) a b c
  | sstore a b c => exact decode_threeRegisterWord decode_sstore (by decide) a b c
  | add a b c => exact decode_threeRegisterWord decode_add (by decide) a b c
  | mul a b c => exact decode_threeRegisterWord decode_mul (by decide) a b c
  | div a b c => exact decode_threeRegisterWord decode_div (by decide) a b c
  | nand a b c => exact decode_threeRegisterWord decode_nand (by decide) a b c
  | halt => decide
  | map b c =>
    exact decode_threeRegisterWord (instr := fun _ b c => .map b c) decode_map (by decide) .r0 b c
  | unmap c =>
    exact decode_threeRegisterWord (instr := fun _ _ c => .unmap c) decode_unmap (by decide) .r0 .r0 c
  | out c =>
    exact decode_threeRegisterWord (instr := fun _ _ c => .out c) decode_out (by decide) .r0 .r0 c
  | inp c =>
    exact decode_threeRegisterWord (instr := fun _ _ c => .inp c) decode_inp (by decide) .r0 .r0 c
  | loadprog b c =>
    exact decode_threeRegisterWord (instr := fun _ b c => .loadprog b c) decode_loadprog (by decide)
      .r0 b c
  | loadimm A imm =>
    have himm : imm < 2 ^ 25 := of_decide_eq_true hwf
    rw [encode, decode_loadimm (opField_immediateWord A imm), regImm_immediateWord,
      immField_immediateWord, Nat.mod_eq_of_lt himm]
  | illegal14 | illegal15 => decide

/-- Settles O1: the case split over the instructions is `decode_encode`. -/
theorem decodingAnEncodedInstructionGivesItBack :
    Obligations.DecodingAnEncodedInstructionGivesItBack := fun _ => decode_encode

/-! ### What the decoder gives -/

theorem hasOp_iff : HasOp w op ↔ opField w = op := by
  rw [HasOp, opField, field_eq_extractLsb]

/-- A decoded immediate is a field of 25 bits. -/
theorem decode_wf (w : Word) : (decode w).wf = true := by
  unfold decode
  split <;> try rfl
  exact decide_eq_true (field_lt w 24 0)

theorem decode_illegal_iff :
    (decode w = .illegal14 ∨ decode w = .illegal15) ↔ 0xE0000000 ≤ w.toNat := by
  constructor
  · have hop := opcode_decode w
    rintro (h | h) <;>
    · rw [h] at hop
      simp only [Instr.opcode, opField, field] at hop
      omega
  · intro h
    exact (opField_illegal h).imp decode_illegal14 decode_illegal15

/-- Settles O4, from what the decoder gives. -/
theorem theOpcodeFieldSelectsTheInstruction : Obligations.TheOpcodeFieldSelectsTheInstruction :=
  fun w => ⟨hasOp_iff.mpr (opcode_decode w).symm, decode_wf w, decode_illegal_iff⟩

/-- Settles O5: eleven closed words. -/
theorem theWorkedDecodingsDecodeAsWritten : Obligations.TheWorkedDecodingsDecodeAsWritten := by
  unfold Obligations.TheWorkedDecodingsDecodeAsWritten
  decide

/-! ### The fields of a word whose unused bits are cleared -/

/-- The word with the bits its opcode does not use cleared. -/
def clearUnused (op : Nat) (w : Word) : Word := w &&& ~~~unusedBits op

/-- A field the mask covers is kept. -/
theorem field_and_of_cover {mask : Word} {hi lo : Nat}
    (hcover : mask.extractLsb hi lo = BitVec.allOnes _) : field (w &&& mask) hi lo = field w hi lo := by
  rw [field_eq_extractLsb, BitVec.extractLsb_and, hcover, BitVec.and_allOnes, field_eq_extractLsb]

/-- A field outside the mask is cleared. -/
theorem field_and_of_clear {mask : Word} {hi lo : Nat} (hclear : mask.extractLsb hi lo = 0#_) :
    field (w &&& mask) hi lo = 0 := by
  rw [field_eq_extractLsb, BitVec.extractLsb_and, hclear, BitVec.and_zero, BitVec.toNat_zero]

theorem usedBits_cover_opField :
    ∀ op ≤ 12, (~~~unusedBits op).extractLsb 31 28 = BitVec.allOnes 4 := by
  decide

theorem usedBits_clear_middle : ∀ op ≤ 12, (~~~unusedBits op).extractLsb 27 9 = 0#19 := by decide

theorem usedBits_clear_regA : ∀ op ≤ 12, 6 < op → (~~~unusedBits op).extractLsb 8 6 = 0#3 := by decide

theorem usedBits_clear_regB :
    ∀ op ≤ 12, op = 7 ∨ 9 ≤ op ∧ op ≤ 11 → (~~~unusedBits op).extractLsb 5 3 = 0#3 := by decide

theorem usedBits_clear_regC : (~~~unusedBits 7).extractLsb 2 0 = 0#3 := by decide

section Fields

variable (w)

theorem regA_clearUnused (h : op ≤ 6) : field (clearUnused op w) 8 6 = (regA w).index :=
  (field_and_of_cover (usedBits_cover_regA h)).trans (regA_index w).symm

theorem regB_clearUnused (h : UsesB op) : field (clearUnused op w) 5 3 = (regB w).index :=
  (field_and_of_cover (usedBits_cover_regB h)).trans (regB_index w).symm

theorem regC_clearUnused (hop : op ≤ 12) (h : op ≠ 7) :
    field (clearUnused op w) 2 0 = (regC w).index :=
  (field_and_of_cover (usedBits_cover_regC op hop h)).trans (regC_index w).symm

end Fields

/-! ### The encoder after the decoder -/

/-- A word of the three-register layout is known by its five fields. -/
theorem threeRegisterWord_eq_of_fields {a b c : Nat} (hop : opField w = op)
    (hmiddle : field w 27 9 = 0) (ha : field w 8 6 = a) (hb : field w 5 3 = b)
    (hc : field w 2 0 = c) : threeRegisterWord op a b c = w := by
  apply BitVec.eq_of_toNat_eq
  have hlt := w.isLt
  simp only [opField, field] at hop hmiddle ha hb hc
  simp only [threeRegisterWord, BitVec.toNat_ofNat]
  omega

theorem immediateWord_of_fields (hop : opField w = 13) :
    immediateWord (regImm w).index (immField w) = w := by
  apply BitVec.eq_of_toNat_eq
  have hlt := w.isLt
  rw [immediateWord_toNat (regImm w).index_lt, regImm_index]
  simp only [opField, immField, field] at hop ⊢
  omega

/-- The encoder writes the fields the opcode uses and zeros elsewhere, and so clears the unused bits. -/
theorem encode_decode (hop : opField w = op) (hle : op ≤ 13) :
    encode (decode w) = clearUnused op w := by
  obtain rfl | hle : op = 13 ∨ op ≤ 12 := by omega
  · rw [decode_loadimm hop, encode, immediateWord_of_fields hop]
    exact (BitVec.and_allOnes).symm
  have hfields {a b c : Nat} := threeRegisterWord_eq_of_fields (a := a) (b := b) (c := c)
    ((field_and_of_cover (usedBits_cover_opField op hle)).trans hop)
    (field_and_of_clear (usedBits_clear_middle op hle))
  have ha (h : 6 < op) : field (clearUnused op w) 8 6 = 0 :=
    field_and_of_clear (usedBits_clear_regA op hle h)
  have hb (h : op = 7 ∨ 9 ≤ op ∧ op ≤ 11) : field (clearUnused op w) 5 3 = 0 :=
    field_and_of_clear (usedBits_clear_regB op hle h)
  have hc := regC_clearUnused w hle
  obtain h | rfl | rfl | rfl | rfl | rfl | rfl :
      op ≤ 6 ∨ op = 7 ∨ op = 8 ∨ op = 9 ∨ op = 10 ∨ op = 11 ∨ op = 12 := by omega
  · have hall := hfields (regA_clearUnused w h) (regB_clearUnused w (.inl h)) (hc (by omega))
    rw [decode, hop]
    interval_cases op <;> exact hall
  · rw [decode_halt hop]
    exact hfields (ha (by decide)) (hb (by decide)) (field_and_of_clear usedBits_clear_regC)
  · rw [decode_map hop]
    exact hfields (ha (by decide)) (regB_clearUnused w (.inr (.inl rfl))) (hc (by decide))
  · rw [decode_unmap hop]
    exact hfields (ha (by decide)) (hb (by decide)) (hc (by decide))
  · rw [decode_out hop]
    exact hfields (ha (by decide)) (hb (by decide)) (hc (by decide))
  · rw [decode_inp hop]
    exact hfields (ha (by decide)) (hb (by decide)) (hc (by decide))
  · rw [decode_loadprog hop]
    exact hfields (ha (by decide)) (regB_clearUnused w (.inr (.inr rfl))) (hc (by decide))

/-! ### The assembler -/

theorem clearUnused_eq_self (h : w &&& unusedBits op = 0) : clearUnused op w = w := by
  ext j hj
  have hbit : (w &&& unusedBits op).getLsbD j = false := by rw [h]; exact BitVec.getLsbD_zero
  simpa [clearUnused, hj] using hbit

theorem clearUnused_and_unusedBits (op : Nat) (w : Word) : clearUnused op w &&& unusedBits op = 0 := by
  rw [clearUnused, BitVec.and_assoc, BitVec.and_comm (~~~_)]
  simp

/-- The assembler refuses the illegal rows, which have the opcodes above 13, and what is not
well-formed. -/
theorem assemble_eq (i : Instr) :
    assemble i = if i.opcode ≤ 13 ∧ i.wf = true then some (encode i) else none := by
  cases i
  case illegal14 | illegal15 => rfl
  all_goals simp [assemble, Instr.opcode]

theorem assemble_some (h : assemble i = some w) : i.opcode ≤ 13 ∧ i.wf = true ∧ w = encode i := by
  rw [assemble_eq] at h
  split at h
  · rename_i hi
    cases h
    exact ⟨hi.1, hi.2, rfl⟩
  · cases h

theorem assemble_wide_immediate (A : Reg) {imm : Nat} (h : 2 ^ 25 ≤ imm) :
    assemble (.loadimm A imm) = none := by
  have hwf : ¬ (Instr.loadimm A imm).wf = true := fun hwf =>
    Nat.not_lt.mpr h (of_decide_eq_true hwf)
  rw [assemble_eq, if_neg fun hi => hwf hi.2]

/-- Settles O2: re-encoding clears the unused bits (`encode_decode`), a decoded instruction is
well-formed, so `decode_encode` gives it back, and what the assembler emits is the encoding of an
instruction, that is the re-encoding of a decoded word. -/
theorem reencodingADecodedWordClearsItsUnusedBits :
    Obligations.ReencodingADecodedWordClearsItsUnusedBits := by
  refine ⟨fun w op hop hle => ?_, fun i w h => ?_, fun A _ => assemble_wide_immediate A⟩
  · have hfield := hasOp_iff.mp hop
    have hclear := encode_decode hfield hle
    exact ⟨hclear, fun hunused => hclear.trans (clearUnused_eq_self hunused), decode_encode (decode_wf w),
      (assemble_eq _).trans (if_pos ⟨((opcode_decode w).trans hfield).trans_le hle, decode_wf w⟩)⟩
  · obtain ⟨hle, hwf, rfl⟩ := assemble_some h
    have hdecode := decode_encode hwf
    have hfield : opField (encode i) = i.opcode := by rw [← opcode_decode, hdecode]
    have hclear : encode i = clearUnused i.opcode (encode i) := by
      rw [← encode_decode hfield hle, hdecode]
    exact ⟨hasOp_iff.mpr hfield, hclear ▸ clearUnused_and_unusedBits _ _, hdecode⟩

end Sys2Proof.Proofs
end

section
/-! PROOFS. What each instruction does to the state, and each step (40_cycle.md R80 to R84). -/

namespace Sys2Proof.Proofs

open Sys2Proof.Machine Sys2Proof.Claims

variable {i : Instr} {s t : State}

/-! ### What the manager's operations leave alone -/

/-- Nothing outside the manager's own state changes: the frame of every operation of the manager. -/
structure OnlyManager (s t : State) : Prop where
  pc : t.pc = s.pc
  status : t.status = s.status
  input : t.input = s.input
  output : t.output = s.output
  config : t.config = s.config

section OnlyManager

variable {id : Nat}

theorem memWrite_onlyManager {off : Nat} {v : Word} (h : memWrite id off v s = .ok t) :
    OnlyManager s t := by
  obtain ⟨g, -, -, rfl⟩ := memWrite_ok h
  exact ⟨rfl, rfl, rfl, rfl, rfl⟩

theorem alloc_onlyManager {size : Nat} (h : alloc size s = .ok (id, t)) : OnlyManager s t := by
  obtain ⟨-, ⟨hin, hout⟩, ⟨hpc, hstatus⟩, hconfig⟩ := alloc_frame h
  exact ⟨hpc, hstatus, hin, hout, hconfig⟩

theorem free_onlyManager (h : free id s = .ok t) : OnlyManager s t := by
  obtain ⟨-, rfl⟩ := free_ok h
  exact ⟨rfl, rfl, rfl, rfl, rfl⟩

theorem replaceZero_onlyManager (h : replaceZero id s = .ok t) : OnlyManager s t := by
  obtain ⟨g, -, ⟨-, rfl⟩ | ⟨-, -, rfl⟩⟩ := replaceZero_ok h
  · exact ⟨rfl, rfl, rfl, rfl, rfl⟩
  · exact ⟨rfl, rfl, rfl, rfl, rfl⟩

end OnlyManager

/-! ### What an instruction does -/

/-- The effects of `Effect`, each with the instructions that can have it. -/
inductive EffectOf (s : State) : Instr → State → Prop
  | same (a b c : Reg) : EffectOf s (.cmov a b c) s
  | write {i : Instr} {r : Reg} (v : Word) (h : writes s i = some r) : EffectOf s i (s.setReg r v)
  | store {a b c : Reg} {t : State}
      (h : memWrite (s.reg a).toNat (s.reg b).toNat (s.reg c) s = .ok t) :
      EffectOf s (.sstore a b c) t
  | alloc {b c : Reg} {id : Nat} {t : State} (h : alloc (s.reg c).toNat s = .ok (id, t)) :
      EffectOf s (.map b c) (t.setReg b (BitVec.ofNat 32 id))
  | free {c : Reg} {t : State} (h0 : s.reg c ≠ 0) (h : free (s.reg c).toNat s = .ok t) :
      EffectOf s (.unmap c) t
  | out (c : Reg) : EffectOf s (.out c) (outByte (BitVec.ofNat 8 (s.reg c).toNat) s)
  | inp (c : Reg) {b : Byte} {rest : List Byte} (h : s.input = b :: rest) :
      EffectOf s (.inp c) (({ s with input := rest } : State).setReg c (byteValue b))
  | halt : EffectOf s .halt { s with status := .halted }
  | jump (b c : Reg) : EffectOf s (.loadprog b c) { s with pc := s.reg c }
  | load {b c : Reg} {t : State} (h0 : s.reg b ≠ 0) (h : replaceZero (s.reg b).toNat s = .ok t) :
      EffectOf s (.loadprog b c) { t with pc := s.reg c }
  | raised (i : Instr) (k : FaultKind) : EffectOf s i { s with status := .faulted k }

/-- Going on from an operation's result, or its fault. -/
theorem effectOf_of_orRaise {α : Type} {r : Except FaultKind α}
    {go : α → Host.Outcome State Fault Refusal} (h : orRaise r s go = .next t)
    (hgo : ∀ a, r = .ok a → go a = .next t → EffectOf s i t) : EffectOf s i t := by
  obtain ⟨a, ha, ht⟩ | ⟨k, -, rfl⟩ := orRaise_next h
  · exact hgo a ha ht
  · exact .raised i k

theorem exec_effectOf (h : exec i s = .next t) : EffectOf s i t := by
  cases i with
  | cmov a b c =>
    by_cases h0 : s.reg c = 0
    · cases (exec_cmov_keeps a b h0).symm.trans h; exact .same a b c
    · cases (exec_cmov_moves a b h0).symm.trans h; exact .write _ (if_pos h0)
  | sload a b c =>
    refine effectOf_of_orRaise h fun v _ ht => ?_
    cases ht; exact .write v rfl
  | sstore a b c =>
    refine effectOf_of_orRaise h fun u hu ht => ?_
    cases ht; exact .store hu
  | add | mul | nand | loadimm => cases h; exact .write _ rfl
  | div a b c =>
    by_cases h0 : s.reg c = 0
    · cases (exec_div_raises a b h0).symm.trans h; exact .raised _ _
    · cases (exec_div_divides a b h0).symm.trans h; exact .write _ rfl
  | halt => cases h; exact .halt
  | map b c =>
    refine effectOf_of_orRaise h fun ⟨id, u⟩ hu ht => ?_
    cases ht; exact .alloc hu
  | unmap c =>
    by_cases h0 : s.reg c = 0
    · cases (exec_unmap_raises (.inl h0)).symm.trans h; exact .raised _ _
    · rw [exec, execUnmap, if_neg h0] at h
      refine effectOf_of_orRaise h fun u hu ht => ?_
      cases ht; exact .free h0 hu
  | out c =>
    rcases Nat.lt_or_ge 255 (s.reg c).toNat with hlarge | hfits
    · cases (exec_out_raises hlarge).symm.trans h; exact .raised _ _
    · cases (exec_out_emits hfits).symm.trans h; exact .out c
  | inp c =>
    cases hin : s.input with
    | nil => cases (exec_inp_ends c hin).symm.trans h; exact .write _ rfl
    | cons b rest => cases (exec_inp_reads c hin).symm.trans h; exact .inp c hin
  | loadprog b c =>
    by_cases h0 : s.reg b = 0
    · cases (exec_loadprog_jumps c h0).symm.trans h; exact .jump b c
    · rw [exec, execLoadprog, if_pos h0] at h
      refine effectOf_of_orRaise h fun u hu ht => ?_
      cases ht; exact .load h0 hu
  | illegal14 | illegal15 => cases h; exact .raised _ _

/-- A step faulted in its fetch, or had the effect of the instruction fetched. -/
theorem step_effectOf (h : step s = .next t) :
    (¬ InBounds s 0 s.pc.toNat ∧ t = { s with status := .faulted .memoryFault }) ∨
    ∃ g, s.segment 0 = some g ∧ s.pc.toNat < g.len ∧
      EffectOf (advance s) (decode (g.wordAt s.pc.toNat)) t := by
  by_cases hin : InBounds s 0 s.pc.toNat
  · obtain ⟨g, hg, hlt⟩ := hin
    obtain ⟨-, hexec⟩ := step_next_fetched h hg hlt
    exact .inr ⟨g, hg, hlt, exec_effectOf hexec⟩
  · obtain ⟨hrun, -⟩ := step_cases h
    cases (step_of_pc_not_inBounds hrun hin).symm.trans h
    exact .inl ⟨hin, rfl⟩

/-! ### The fields outside the manager after an instruction -/

namespace EffectOf

theorem config (h : EffectOf s i t) : t.config = s.config := by
  cases h with
  | store h => exact (memWrite_onlyManager h).config
  | alloc h => exact (alloc_onlyManager h).config
  | free _ h => exact (free_onlyManager h).config
  | load _ h => exact (replaceZero_onlyManager h).config
  | _ => rfl

/-- OUT alone writes the output stream (10_state.md R36). -/
theorem output (h : EffectOf s i t) : t.output = s.output ∨
    ∃ c, i = .out c ∧ t.output = s.output ++ [BitVec.ofNat 8 (s.reg c).toNat] := by
  cases h with
  | out c => exact .inr ⟨c, rfl, rfl⟩
  | store h => exact .inl (memWrite_onlyManager h).output
  | alloc h => exact .inl (alloc_onlyManager h).output
  | free _ h => exact .inl (free_onlyManager h).output
  | load _ h => exact .inl (replaceZero_onlyManager h).output
  | _ => exact .inl rfl

/-- IN alone reads the input stream (10_state.md R35). -/
theorem input (h : EffectOf s i t) :
    t.input = s.input ∨ ∃ c b, i = .inp c ∧ s.input = b :: t.input := by
  cases h with
  | inp c h => exact .inr ⟨c, _, rfl, h⟩
  | store h => exact .inl (memWrite_onlyManager h).input
  | alloc h => exact .inl (alloc_onlyManager h).input
  | free _ h => exact .inl (free_onlyManager h).input
  | load _ h => exact .inl (replaceZero_onlyManager h).input
  | _ => exact .inl rfl

/-- LOADPROG alone writes the program counter (10_state.md R23), unless it faults. -/
theorem pc (h : EffectOf s i t) : (∃ b c, i = .loadprog b c ∧ t.status = s.status ∧ t.pc = s.reg c) ∨
    (t.pc = s.pc ∧ ((∀ b c, i ≠ .loadprog b c) ∨ ∃ k, t.status = .faulted k)) := by
  cases h with
  | jump b c => exact .inl ⟨b, c, rfl, rfl, rfl⟩
  | load _ h => exact .inl ⟨_, _, rfl, (replaceZero_onlyManager h).status, rfl⟩
  | store h => exact .inr ⟨(memWrite_onlyManager h).pc, .inl nofun⟩
  | alloc h => exact .inr ⟨(alloc_onlyManager h).pc, .inl nofun⟩
  | free _ h => exact .inr ⟨(free_onlyManager h).pc, .inl nofun⟩
  | write v h => exact .inr ⟨rfl, .inl fun b c he => by cases he; cases h⟩
  | raised i k => exact .inr ⟨rfl, .inr ⟨k, rfl⟩⟩
  | same | out | inp | halt => exact .inr ⟨rfl, .inl nofun⟩

end EffectOf

end Sys2Proof.Proofs
end

section
/-! PROOFS. Steps and runs: when a step is enabled, the program counter, faults, the streams and the
configuration (10_state.md R23, R24, R35, R36; 40_cycle.md R80 to R87). -/

namespace Sys2Proof.Proofs

open Sys2Proof.Machine Sys2Proof.Claims

variable {s t : State} {g : Segment} {k : FaultKind}

/-! ### When a step is enabled -/

theorem step_enabled_iff : (∃ t, step s = .next t) ↔ s.status = .running :=
  ⟨fun ⟨_, h⟩ => (step_cases h).1, step_running⟩

theorem step_halted (h : s.status = .halted) : step s = .fault .halted := by rw [step, h]

theorem step_faulted (h : s.status = .faulted k) : step s = .fault (.faulted k) := by rw [step, h]

/-- Settles O7, from the answer of the step for each status. -/
theorem aStepIsEnabledExactlyWhenRunning : Obligations.AStepIsEnabledExactlyWhenRunning :=
  ⟨fun _ => step_enabled_iff, fun _ => step_halted, fun _ _ => step_faulted⟩

/-! ### Runs -/

theorem run_succ (h : step s = .next t) (n : Nat) : run (n + 1) s = run n t := by rw [run, h]

theorem run_add (s : State) (n m : Nat) : run (n + m) s = run m (run n s) := by
  induction n generalizing s with
  | zero => rw [Nat.zero_add, run]
  | succ n ih =>
    by_cases hrun : s.status = .running
    · obtain ⟨t, ht⟩ := step_running hrun
      rw [Nat.succ_add, run_succ ht, run_succ ht, ih]
    · simp only [run_not_running hrun]

/-- Settles O12: a longer run goes on from where the shorter one ended (`run_add`), and a stopped
machine stays as it is. -/
theorem aRunStopsAtMostOnce : Obligations.ARunStopsAtMostOnce := by
  intro s n m
  have hstays (hstop : (run n s).status ≠ .running) : run (n + m) s = run n s := by
    rw [run_add, run_not_running hstop]
  refine ⟨hstays, fun hrun => ?_⟩
  by_contra hstop
  exact hstop (hstays hstop ▸ hrun)

/-! ### Faults -/

/-- The state a faulting step leaves, from the table of faults. -/
theorem eq_of_step_faulted (h : step s = .next t) (ht : t.status = .faulted k) :
    (¬ InBounds s 0 s.pc.toNat ∧ t = { s with status := .faulted k }) ∨
    (InBounds s 0 s.pc.toNat ∧ t = { s with pc := s.pc + 1, status := .faulted k }) := by
  obtain ⟨hfetch, hexec⟩ := everyFaultHasItsListedCause
  by_cases hin : InBounds s 0 s.pc.toNat
  · obtain ⟨g, hg, hlt⟩ := hin
    obtain ⟨-, heq⟩ := hexec s t g k hg hlt h
    exact .inr ⟨⟨g, hg, hlt⟩, heq ht⟩
  · obtain ⟨hkind, heq⟩ := hfetch s t k hin h
    exact .inl ⟨hin, hkind.mp ht ▸ heq⟩

/-- Settles O9: `eq_of_step_faulted` shows every field, and a machine that faulted has no step. -/
theorem faultsArePrecise : Obligations.FaultsArePrecise := by
  intro s t k h ht
  have hstop : t.status ≠ .running := by rw [ht]; exact Status.noConfusion
  have hnone := step_ne_next hstop
  have hstays := run_not_running hstop
  obtain ⟨hin, rfl⟩ | ⟨hin, rfl⟩ := eq_of_step_faulted h ht
  · exact ⟨fun _ => rfl, keepsMemory_of_seg rfl, ⟨rfl, rfl⟩, ⟨rfl, rfl⟩, rfl, .inl ⟨hin, rfl⟩,
      hnone, hstays⟩
  · exact ⟨fun _ => rfl, keepsMemory_of_seg rfl, ⟨rfl, rfl⟩, ⟨rfl, rfl⟩, rfl, .inr ⟨hin, rfl⟩,
      hnone, hstays⟩

/-! ### The program counter -/

/-- A segment is shorter than 2^32 words, so the index after one inside it does not wrap. -/
theorem toNat_pc_succ (hinv : Inv s) (hg : s.segment 0 = some g) (hlt : s.pc.toNat < g.len) :
    (s.pc + 1).toNat = s.pc.toNat + 1 := by
  obtain ⟨-, -, -, hlen⟩ := Memory.wf_find hinv.memory hg
  rw [BitVec.toNat_add_of_lt]
  · rfl
  · exact (Nat.succ_le_of_lt hlt).trans_lt hlen

/-- Settles O8: a fetch fault keeps pc; after the fetch `EffectOf.pc` says that a LOADPROG which does
not fault sets it, and every other instruction leaves it advanced. -/
theorem howAStepChangesThePc : Obligations.HowAStepChangesThePc := by
  intro s t hinv h
  obtain ⟨hrun, -⟩ := step_cases h
  refine ⟨fun hout => ?_, fun g hg hlt => ?_⟩
  · cases (step_of_pc_not_inBounds hrun hout).symm.trans h
    exact ⟨rfl, rfl⟩
  · obtain ⟨-, hexec⟩ := step_next_fetched h hg hlt
    obtain ⟨b, c, hi, hstatus, htarget⟩ | ⟨hnext, hother⟩ := (exec_effectOf hexec).pc
    · refine ⟨fun b' c' hi' _ => ?_, fun hnot => ?_⟩
      · cases hi.symm.trans hi'
        exact htarget
      · obtain hno | hstop := hnot
        · exact absurd hi (hno b c)
        · exact absurd (hstatus.trans hrun) hstop
    · refine ⟨fun b c hi hrun' => ?_, fun _ => ?_⟩
      · obtain hno | ⟨k, hfault⟩ := hother
        · exact absurd hi (hno b c)
        · cases hrun'.symm.trans hfault
      · exact (congrArg BitVec.toNat hnext).trans (toNat_pc_succ hinv hg hlt)

/-! ### The configuration and the streams -/

theorem step_config (h : step s = .next t) : t.config = s.config := by
  obtain ⟨-, rfl⟩ | ⟨g, -, -, heffect⟩ := step_effectOf h
  · rfl
  · exact heffect.config

/-- Settles O17, by induction over the run. -/
theorem theConfigurationIsFixedForARun : Obligations.TheConfigurationIsFixedForARun := fun s n =>
  run_induction (P := fun t => t.config = s.config) (fun _ _ hu h => (step_config h).trans hu) n s rfl

theorem step_output (h : step s = .next t) : t.output = s.output ∨
    ∃ g c, s.segment 0 = some g ∧ s.pc.toNat < g.len ∧ decode (g.wordAt s.pc.toNat) = .out c ∧
      t.output = s.output ++ [BitVec.ofNat 8 (s.reg c).toNat] := by
  obtain ⟨-, rfl⟩ | ⟨g, hg, hlt, heffect⟩ := step_effectOf h
  · exact .inl rfl
  · exact heffect.output.imp_right fun ⟨c, hc, hout⟩ => ⟨g, c, hg, hlt, hc, hout⟩

theorem step_output_prefix (h : step s = .next t) : s.output <+: t.output := by
  obtain hsame | ⟨g, c, -, -, -, happend⟩ := step_output h
  · exact hsame ▸ List.prefix_rfl
  · exact happend ▸ List.prefix_append _ _

/-- Settles O19: one step by `step_output`, a run by induction. -/
theorem emittedBytesAreNeverTakenBack : Obligations.EmittedBytesAreNeverTakenBack :=
  ⟨fun _ _ => step_output, fun s n =>
    run_induction (P := fun t => s.output <+: t.output)
      (fun _ _ hu h => hu.trans (step_output_prefix h)) n s List.prefix_rfl⟩

theorem step_input (h : step s = .next t) : t.input = s.input ∨
    ∃ g c b, s.segment 0 = some g ∧ s.pc.toNat < g.len ∧ decode (g.wordAt s.pc.toNat) = .inp c ∧
      s.input = b :: t.input := by
  obtain ⟨-, rfl⟩ | ⟨g, hg, hlt, heffect⟩ := step_effectOf h
  · exact .inl rfl
  · exact heffect.input.imp_right fun ⟨c, b, hc, hin⟩ => ⟨g, c, b, hg, hlt, hc, hin⟩

theorem step_input_suffix (h : step s = .next t) : t.input <:+ s.input := by
  obtain hsame | ⟨g, c, b, -, -, -, hcons⟩ := step_input h
  · exact hsame ▸ List.suffix_rfl
  · exact hcons ▸ List.suffix_cons _ _

/-- Settles O20: one step by `step_input`, a run by induction. -/
theorem inputIsConsumedInOrderByInOnly : Obligations.InputIsConsumedInOrderByInOnly :=
  ⟨fun _ _ => step_input, fun s n =>
    run_induction (P := fun t => t.input <:+ s.input)
      (fun _ _ hu h => (step_input_suffix h).trans hu) n s List.suffix_rfl⟩

end Sys2Proof.Proofs
end

section
/-! PROOFS. The invariants of the memory manager and the life cycle of an id (10_state.md R26 to R31,
20_memory.md R56, 43_segment_management.md R109). -/

namespace Sys2Proof.Proofs

open Sys2Proof.Machine Sys2Proof.Claims

variable {i : Instr} {s t : State} {id size : Nat}

/-! ### The conditions of the ids: never minted, live, pooled -/

/-- Every id is in the condition it was in. -/
structure KeepsConditions (s t : State) : Prop where
  live : ∀ id, t.live id = s.live id
  pool : t.pool = s.pool
  nextId : t.nextId = s.nextId

theorem keepsConditions_of_seg (hseg : t.seg = s.seg) (hpool : t.pool = s.pool)
    (hnext : t.nextId = s.nextId) : KeepsConditions s t :=
  ⟨fun id => by simp only [State.live, segment_eq_find, hseg], hpool, hnext⟩

/-- Binding a live id to another segment changes the condition of none. -/
theorem keepsConditions_of_seg_put {g : Segment} (hlive : s.live id = true)
    (hseg : t.seg = Table.put s.seg id g) (hpool : t.pool = s.pool) (hnext : t.nextId = s.nextId) :
    KeepsConditions s t := by
  refine ⟨fun j => ?_, hpool, hnext⟩
  by_cases hj : j = id
  · subst hj
    rw [hlive, live_iff, segment_of_seg_put hseg, if_pos rfl]
    exact ⟨g, rfl⟩
  · rw [State.live, segment_of_seg_put hseg, if_neg hj, State.live]

theorem memWrite_keepsConditions {off : Nat} {v : Word} (h : memWrite id off v s = .ok t) :
    KeepsConditions s t := by
  obtain ⟨g, hg, -, rfl⟩ := memWrite_ok h
  exact keepsConditions_of_seg_put (live_iff.mpr ⟨g, hg⟩) rfl rfl rfl

theorem replaceZero_keepsConditions (h0 : s.live 0 = true) (h : replaceZero id s = .ok t) :
    KeepsConditions s t := by
  obtain ⟨g, -, ⟨-, rfl⟩ | ⟨-, -, rfl⟩⟩ := replaceZero_ok h
  · exact ⟨fun _ => rfl, rfl, rfl⟩
  · exact keepsConditions_of_seg_put h0 rfl rfl rfl

/-- No instruction changes the condition of an id but a MAP, by its `Alloc`, and an UNMAP, by its
`Free`. -/
theorem effectOf_conditions (h0 : s.live 0 = true) (h : EffectOf s i t) :
    KeepsConditions s t ∨
    (∃ b c id u, i = .map b c ∧ alloc (s.reg c).toNat s = .ok (id, u) ∧ KeepsConditions u t) ∨
    (∃ c, i = .unmap c ∧ (s.reg c).toNat ≠ 0 ∧ free (s.reg c).toNat s = .ok t) := by
  cases h with
  | store h => exact .inl (memWrite_keepsConditions h)
  | load _ h =>
    obtain ⟨hlive, hpool, hnext⟩ := replaceZero_keepsConditions h0 h
    exact .inl ⟨hlive, hpool, hnext⟩
  | alloc h => exact .inr (.inl ⟨_, _, _, _, rfl, h, fun _ => rfl, rfl, rfl⟩)
  | free h0 h => exact .inr (.inr ⟨_, rfl, toNat_ne_zero h0, h⟩)
  | _ => exact .inl ⟨fun _ => rfl, rfl, rfl⟩

/-! ### The invariants of the manager -/

theorem managerInvariants_congr (hm : ManagerInvariants s) (h : KeepsConditions s t) :
    ManagerInvariants t := by
  simpa only [ManagerInvariants, h.live, h.pool, h.nextId] using hm

/-- The last of the invariants, on the ids never minted, follows from the one before it. -/
theorem managerInvariants_of_minted (h0 : s.live 0 = true) (hdistinct : s.pool.Nodup)
    (hdead : ∀ id ∈ s.pool, s.live id = false) (hzero : 0 ∉ s.pool)
    (hminted : ∀ id, (s.live id = true ∨ id ∈ s.pool) ↔ id < s.nextId) : ManagerInvariants s := by
  refine ⟨h0, hdistinct, hdead, hzero, hminted, fun id hid => ?_⟩
  obtain ⟨hlive, hpool⟩ := not_or.mp (mt (hminted id).mp (Nat.not_lt.mpr hid))
  exact ⟨Bool.eq_false_iff.mpr hlive, hpool⟩

/-- `Alloc` makes one id live: the top of the pool, distinct from those below it, or the next id,
with which the minted ids grow by one. -/
theorem managerInvariants_alloc (hm : ManagerInvariants s) (h : alloc size s = .ok (id, t)) :
    ManagerInvariants t := by
  obtain ⟨h0, hdistinct, hdead, hzero, hminted, -⟩ := hm
  have hlive := alloc_live_iff h
  have h0' : t.live 0 = true := (hlive 0).mpr (.inr h0)
  obtain ⟨-, ⟨rest, hp, rfl⟩ | ⟨hp, -, rfl, rfl⟩⟩ := alloc_ok h
  · rw [hp] at hdistinct hdead hzero
    obtain ⟨hnotMem, hdistinct⟩ := List.nodup_cons.mp hdistinct
    obtain ⟨-, hdead⟩ := List.forall_mem_cons.mp hdead
    refine managerInvariants_of_minted h0' hdistinct (fun j hj => ?_)
      (fun hmem => hzero (List.mem_cons_of_mem _ hmem)) fun j => ?_
    · have hne : j ≠ id := fun he => hnotMem (he ▸ hj)
      simp [Bool.eq_false_iff, hlive, hne, hdead j hj]
    · rw [hlive, ← hminted, hp, List.mem_cons, or_assoc, or_left_comm]
  · refine managerInvariants_of_minted h0' hdistinct ?_ hzero fun j => ?_
    · simp [hp]
    · have hj : s.live j = true ↔ j < s.nextId := by simpa [hp] using hminted j
      rw [hlive, hj]
      simp only [hp, List.not_mem_nil, or_false]
      omega

/-- `Free` moves one live id, which was not in the pool, into the pool. -/
theorem managerInvariants_free (hm : ManagerInvariants s) (hid : id ≠ 0) (h : free id s = .ok t) :
    ManagerInvariants t := by
  obtain ⟨h0, hdistinct, hdead, hzero, hminted, -⟩ := hm
  have hlive := free_live_iff h
  obtain ⟨hpool, hnext⟩ := free_ids h
  obtain ⟨hidLive, -⟩ := free_ok h
  have hnotMem : id ∉ s.pool := fun hmem => Bool.false_ne_true ((hdead id hmem).symm.trans hidLive)
  have hdead' (j : Nat) (hj : j ∈ s.pool) : t.live j = false := by
    simp [Bool.eq_false_iff, hlive, hdead j hj]
  have hdeadId : t.live id = false := by simp [Bool.eq_false_iff, hlive]
  refine managerInvariants_of_minted ((hlive 0).mpr ⟨hid.symm, h0⟩) ?_ ?_ ?_ fun j => ?_
  · rw [hpool]; exact List.nodup_cons.mpr ⟨hnotMem, hdistinct⟩
  · rw [hpool]; exact List.forall_mem_cons.mpr ⟨hdeadId, hdead'⟩
  · rw [hpool, List.mem_cons]; exact not_or.mpr ⟨hid.symm, hzero⟩
  · rw [hlive, hpool, hnext, ← hminted, List.mem_cons]
    by_cases hj : j = id
    · simp [hj, hidLive]
    · simp [hj]

theorem managerInvariants_construct {program : List Word} {input : List Byte} {config : Config}
    (h : construct program input config = .ok s) : ManagerInvariants s := by
  have h0 : s.live 0 = true := live_iff.mpr ⟨_, construct_segment_zero h⟩
  have hlive (j : Nat) : s.live j = true ↔ j < 1 := by
    by_cases hj : j = 0
    · simp [hj, h0]
    · simp [construct_live_ne_zero h hj, hj]
  obtain ⟨-, rfl⟩ := construct_ok h
  exact managerInvariants_of_minted h0 List.nodup_nil nofun List.not_mem_nil fun j => by
    simpa using hlive j

theorem managerInvariants_effectOf (hm : ManagerInvariants s) (h : EffectOf s i t) :
    ManagerInvariants t := by
  have ⟨h0, _⟩ := hm
  obtain hkept | ⟨b, c, id, u, -, halloc, hkept⟩ | ⟨c, -, hid, hfree⟩ := effectOf_conditions h0 h
  · exact managerInvariants_congr hm hkept
  · exact managerInvariants_congr (managerInvariants_alloc hm halloc) hkept
  · exact managerInvariants_free hm hid hfree

theorem managerInvariants_step (hm : ManagerInvariants s) (h : step s = .next t) :
    ManagerInvariants t := by
  obtain ⟨-, rfl⟩ | ⟨g, -, -, heffect⟩ := step_effectOf h
  · exact hm
  · exact managerInvariants_effectOf (s := advance s) hm heffect

/-- Settles O13: the table of a constructed machine binds id 0 alone; a step changes the condition of
an id only by an `Alloc` or a `Free`, and both keep the invariants. -/
theorem theManagersInvariantsHoldAndAreKept : Obligations.TheManagersInvariantsHoldAndAreKept :=
  ⟨fun _ _ _ _ => managerInvariants_construct, fun _ _ => managerInvariants_step⟩

/-! ### The invariant of the model -/

theorem managerInvariants_of_inv (h : Inv s) : ManagerInvariants s :=
  managerInvariants_of_minted h.zero_live h.pool_distinct h.pool_dead h.zero_not_pooled h.ids_minted

theorem inv_of_managerInvariants (hwf : Memory.wf s.seg) (hm : ManagerInvariants s)
    (hnext : s.nextId ≤ idLimit) : Inv s := by
  obtain ⟨h0, hdistinct, hdead, hzero, hminted, -⟩ := hm
  exact ⟨hwf, h0, hdistinct, hdead, hzero, hminted, Nat.one_le_of_lt ((hminted 0).mp (.inl h0)), hnext⟩

theorem inv_construct {program : List Word} {input : List Byte} {config : Config}
    (h : construct program input config = .ok s) : Inv s := by
  refine inv_of_managerInvariants (construct_memory_wf h) (managerInvariants_construct h) ?_
  obtain ⟨-, rfl⟩ := construct_ok h
  exact Nat.one_le_two_pow

/-- Settles O15: reset is the construction with no program and no input. -/
theorem theModelsInvariantHoldsAtReset : Obligations.TheModelsInvariantHoldsAtReset :=
  inv_construct construct_nothing

theorem alloc_nextId_le (hnext : s.nextId ≤ idLimit) (h : alloc size s = .ok (id, t)) :
    t.nextId ≤ idLimit := by
  obtain ⟨-, ⟨rest, -, rfl⟩ | ⟨-, hne, -, rfl⟩⟩ := alloc_ok h
  · exact hnext
  · exact Nat.lt_of_le_of_ne hnext hne

theorem effectOf_nextId_le (h0 : s.live 0 = true) (hnext : s.nextId ≤ idLimit)
    (h : EffectOf s i t) : t.nextId ≤ idLimit := by
  obtain hkept | ⟨b, c, id, u, -, halloc, hkept⟩ | ⟨c, -, -, hfree⟩ := effectOf_conditions h0 h
  · exact hkept.nextId.trans_le hnext
  · exact hkept.nextId.trans_le (alloc_nextId_le hnext halloc)
  · obtain ⟨-, hsame⟩ := free_ids hfree
    exact hsame.trans_le hnext

theorem alloc_eq_nextFresh (h : alloc size s = .ok (id, t)) : id = nextFresh s := by
  unfold nextFresh
  obtain ⟨-, ⟨rest, hp, -⟩ | ⟨hp, -, rfl, -⟩⟩ := alloc_ok h
  · rw [hp]
  · rw [hp]

theorem alloc_id_lt (hinv : Inv s) (h : alloc size s = .ok (id, t)) : id < 2 ^ 32 := by
  have hleft : ¬ NoIdLeft s := fun hno => by cases h.symm.trans (alloc_refused (.inl hno))
  exact alloc_eq_nextFresh h ▸ nextFresh_lt hinv hleft

/-- MAP binds an id in range to a segment no longer than a register can say; no other instruction
lengthens a segment. -/
theorem effectOf_memory_wf (hinv : Inv s) (h : EffectOf s i t) : Memory.wf t.seg := by
  cases h with
  | store h => exact memWrite_keeps_wf hinv.memory h
  | alloc h => exact (alloc_keeps_wf hinv.memory (alloc_id_lt hinv h) (s.reg _).isLt h :)
  | free _ h => exact free_keeps_wf hinv.memory h
  | load _ h => exact (replaceZero_keeps_wf hinv.memory h :)
  | _ => exact hinv.memory

theorem inv_effectOf (hinv : Inv s) (h : EffectOf s i t) : Inv t := by
  obtain ⟨-, hnext⟩ := hinv.next_range
  exact inv_of_managerInvariants (effectOf_memory_wf hinv h)
    (managerInvariants_effectOf (managerInvariants_of_inv hinv) h)
    (effectOf_nextId_le hinv.zero_live hnext h)

/-- The invariant looks at the memory, the pool and the next id alone. -/
theorem inv_congr (hinv : Inv s) (hseg : t.seg = s.seg) (hpool : t.pool = s.pool)
    (hnext : t.nextId = s.nextId) : Inv t := by
  obtain ⟨-, hrange⟩ := hinv.next_range
  have hm := managerInvariants_of_inv hinv
  exact inv_of_managerInvariants (hseg ▸ hinv.memory)
    (managerInvariants_congr hm (keepsConditions_of_seg hseg hpool hnext)) (hnext ▸ hrange)

theorem inv_advance (hinv : Inv s) : Inv (advance s) := inv_congr hinv rfl rfl rfl

theorem inv_step (hinv : Inv s) (h : step s = .next t) : Inv t := by
  obtain ⟨-, rfl⟩ | ⟨g, -, -, heffect⟩ := step_effectOf h
  · exact inv_congr hinv rfl rfl rfl
  · exact inv_effectOf (inv_advance hinv) heffect

/-- Settles O14: the manager's invariants are O13's, and the memory operations keep the canonical form
and the range of the ids. -/
theorem everyStepKeepsMemoryCanonicalAndIdsInRange :
    Obligations.EveryStepKeepsMemoryCanonicalAndIdsInRange :=
  ⟨fun _ _ _ _ => inv_construct, fun _ _ => inv_step⟩

/-! ### The capacity -/

/-- `ReplaceZero` exchanges the words of segment 0 for those of the copy, and has checked the sum. -/
theorem replaceZero_room (hwf : Memory.wf s.seg) (hroom : Room s 0) (h : replaceZero id s = .ok t) :
    Room t 0 := by
  obtain ⟨g, -, ⟨-, rfl⟩ | ⟨-, hcap, rfl⟩⟩ := replaceZero_ok h
  · exact hroom
  · obtain ⟨hrising, -⟩ := hwf
    have hput : wordsLive (Table.put s.seg 0 g) + lenZero s = wordsLive s.seg + g.len :=
      wordsLive_put hrising 0 g
    have hzero : lenZero s ≤ wordsLive s.seg := boundLen_le 0
    intro most hmost
    have hfit := withinCapacity_iff.mp hcap most hmost
    change wordsLive (Table.put s.seg 0 g) ≤ most
    omega

theorem memWrite_room {off : Nat} {v : Word} (hwf : Memory.wf s.seg) (hroom : Room s 0)
    (h : memWrite id off v s = .ok t) : Room t 0 := by
  obtain ⟨g, hg, -, rfl⟩ := memWrite_ok h
  obtain ⟨hrising, -⟩ := hwf
  have hput := wordsLive_put hrising id (g.store off v)
  have hlen : boundLen s.seg id = g.len := by rw [boundLen, ← segment_eq_find, hg]; rfl
  refine hroom.of_le rfl ?_
  change wordsLive (Table.put s.seg id (g.store off v)) ≤ wordsLive s.seg
  rw [hlen, Segment.store_len] at hput
  omega

theorem effectOf_room (hwf : Memory.wf s.seg) (hroom : Room s 0) (h : EffectOf s i t) : Room t 0 := by
  cases h with
  | store h => exact memWrite_room hwf hroom h
  | alloc h =>
    obtain ⟨hcap, -⟩ := alloc_ok h
    exact (Room.alloc (n := 0) (withinCapacity_iff.mp hcap) h :)
  | free _ h => exact hroom.free h
  | load _ h => exact (replaceZero_room hwf hroom h :)
  | _ => exact hroom

/-- Settles O16: `Alloc` and `ReplaceZero` check the capacity, a store keeps every length and `Free`
only takes words away. -/
theorem liveWordsStayWithinTheCapacity : Obligations.LiveWordsStayWithinTheCapacity := by
  intro s t hinv hfit h
  obtain ⟨-, rfl⟩ | ⟨g, -, -, heffect⟩ := step_effectOf h
  · exact hfit
  · exact effectOf_room (s := advance s) hinv.memory hfit heffect

/-! ### The lengths of existing segments -/

theorem len_eq_of_segment_eq {g g' : Segment} (hkept : t.segment id = s.segment id)
    (hg : s.segment id = some g) (hg' : t.segment id = some g') : g'.len = g.len := by
  cases hg'.symm.trans (hkept.trans hg)
  rfl

/-- A segment bound before and after an instruction keeps its length, or is segment 0 under a LOADPROG
with a non-zero id. -/
theorem effectOf_len {g g' : Segment} (hinv : Inv s) (h : EffectOf s i t)
    (hg : s.segment id = some g) (hg' : t.segment id = some g') : g'.len = g.len ∨
    (id = 0 ∧ ∃ b c src, i = .loadprog b c ∧ s.reg b ≠ 0 ∧ s.segment (s.reg b).toNat = some src ∧
      g'.len = src.len) := by
  cases h with
  | store h =>
    have hlen := segLen_memWrite h id
    rw [segLen_some hg, segLen_some hg'] at hlen
    exact .inl (Except.ok.inj hlen)
  | alloc h =>
    have hne : id ≠ nextFresh s := by
      rintro rfl
      exact Bool.false_ne_true ((nextFresh_not_live hinv).symm.trans (live_iff.mpr ⟨g, hg⟩))
    exact .inl (len_eq_of_segment_eq (alloc_segment_ne h (alloc_eq_nextFresh h ▸ hne)) hg hg')
  | free _ h =>
    rw [free_segment h] at hg'
    split at hg'
    · cases hg'
    · exact .inl (len_eq_of_segment_eq rfl hg hg')
  | load h0 h =>
    obtain ⟨src, hsrc, ⟨hzero, -⟩ | ⟨-, -, rfl⟩⟩ := replaceZero_ok h
    · exact absurd hzero (toNat_ne_zero h0)
    · have hput := (segment_of_seg_put rfl id).symm.trans hg'
      split at hput
      · cases hput
        exact .inr ⟨‹_›, _, _, _, rfl, h0, hsrc, rfl⟩
      · exact .inl (len_eq_of_segment_eq rfl hg hput)
  | _ => exact .inl (len_eq_of_segment_eq rfl hg hg')

/-- Settles O18, from what each effect does to the length of a segment. -/
theorem existingSegmentsKeepTheirLength : Obligations.ExistingSegmentsKeepTheirLength := by
  intro s t id g g' hinv h hg hg'
  obtain ⟨-, rfl⟩ | ⟨p, hp, hlt, heffect⟩ := step_effectOf h
  · exact .inl (len_eq_of_segment_eq rfl hg hg')
  · exact (effectOf_len (inv_advance hinv) heffect hg hg').imp_right
      fun ⟨hid, b, c, src, hi, h0, hsrc, hlen⟩ => ⟨hid, p, b, c, src, hp, hlt, hi, h0, hsrc, hlen⟩

/-! ### The life cycle of an id -/

theorem not_mem_pool_of_live (hinv : Inv s) (hlive : s.live id = true) : id ∉ s.pool := fun hmem =>
  Bool.false_ne_true ((hinv.pool_dead id hmem).symm.trans hlive)

/-- Never minted, live or pooled. -/
theorem condition_of_inv (hinv : Inv s) (id : Nat) :
    (s.nextId ≤ id ∧ s.live id = false ∧ id ∉ s.pool) ∨
    (id < s.nextId ∧ s.live id = true ∧ id ∉ s.pool) ∨
    (id < s.nextId ∧ s.live id = false ∧ id ∈ s.pool) := by
  obtain hminted | hunminted := Nat.lt_or_ge id s.nextId
  · obtain hlive | hpooled := (hinv.ids_minted id).mpr hminted
    · exact .inr (.inl ⟨hminted, hlive, not_mem_pool_of_live hinv hlive⟩)
    · exact .inr (.inr ⟨hminted, hinv.pool_dead id hpooled, hpooled⟩)
  · obtain ⟨-, -, -, -, -, hnone⟩ := managerInvariants_of_inv hinv
    exact .inl ⟨hunminted, hnone id hunminted⟩

/-- The id `j` is in the condition it was in. -/
def KeepsConditionOf (j : Nat) (s t : State) : Prop :=
  t.live j = s.live j ∧ (j ∈ t.pool ↔ j ∈ s.pool) ∧ (t.nextId ≤ j ↔ s.nextId ≤ j)

theorem KeepsConditions.keepsConditionOf (h : KeepsConditions s t) (j : Nat) :
    KeepsConditionOf j s t :=
  ⟨h.live j, by rw [h.pool], by rw [h.nextId]⟩

theorem alloc_keepsConditionOf (h : alloc size s = .ok (id, t)) {j : Nat} (hj : j ≠ id) :
    KeepsConditionOf j s t := by
  refine ⟨by rw [State.live, alloc_segment_ne h hj, State.live], ?_⟩
  obtain ⟨-, ⟨rest, hp, rfl⟩ | ⟨-, -, rfl, rfl⟩⟩ := alloc_ok h
  · simp [hp, hj]
  · exact ⟨Iff.rfl, by dsimp only; omega⟩

theorem free_keepsConditionOf (h : free id s = .ok t) {j : Nat} (hj : j ≠ id) :
    KeepsConditionOf j s t := by
  obtain ⟨hpool, hnext⟩ := free_ids h
  refine ⟨by rw [State.live, free_segment h, if_neg hj, State.live], ?_, by rw [hnext]⟩
  simp [hpool, hj]

/-- MAP makes the fresh id live, UNMAP makes a live id other than 0 pooled, and nothing else changes the
condition of an id. -/
theorem effectOf_condition (hinv : Inv s) (h : EffectOf s i t) (j : Nat) :
    KeepsConditionOf j s t ∨
    (∃ b c, i = .map b c ∧ j = nextFresh s ∧ s.live j = false ∧ t.live j = true ∧ j ∉ t.pool ∧
      j < t.nextId) ∨
    (∃ c, i = .unmap c ∧ j = (s.reg c).toNat ∧ j ≠ 0 ∧ s.live j = true ∧ t.live j = false ∧
      j ∈ t.pool ∧ j < t.nextId) := by
  have hinv' := inv_effectOf hinv h
  obtain hkept | ⟨b, c, id, u, hi, halloc, hkept⟩ | ⟨c, hi, h0, hfree⟩ :=
    effectOf_conditions hinv.zero_live h
  · exact .inl (hkept.keepsConditionOf j)
  · by_cases hj : j = id
    · subst hj
      have hfresh := alloc_eq_nextFresh halloc
      have hlive : t.live j = true := (hkept.live j).trans ((alloc_live_iff halloc j).mpr (.inl rfl))
      exact .inr (.inl ⟨b, c, hi, hfresh, hfresh ▸ nextFresh_not_live hinv, hlive,
        not_mem_pool_of_live hinv' hlive, (hinv'.ids_minted j).mp (.inl hlive)⟩)
    · obtain ⟨hlive, hpool, hnext⟩ := alloc_keepsConditionOf halloc hj
      exact .inl ⟨(hkept.live j).trans hlive, hkept.pool ▸ hpool, hkept.nextId ▸ hnext⟩
  · by_cases hj : j = (s.reg c).toNat
    · subst hj
      obtain ⟨hlive, -⟩ := free_ok hfree
      obtain ⟨hpool, -⟩ := free_ids hfree
      have hmem : (s.reg c).toNat ∈ t.pool := hpool ▸ List.mem_cons_self
      exact .inr (.inr ⟨c, hi, rfl, h0, hlive, hinv'.pool_dead _ hmem, hmem,
        (hinv'.ids_minted _).mp (.inr hmem)⟩)
    · exact .inl (free_keepsConditionOf hfree hj)

/-- Every operation on an id that is not live faults. -/
theorem memoryFault_of_not_live (h : s.live id = false) (off : Nat) (v : Word) :
    memRead id off s = .error .memoryFault ∧ memWrite id off v s = .error .memoryFault ∧
    free id s = .error .memoryFault ∧ segLen id s = .error .memoryFault ∧
    replaceZero id s = .error .memoryFault := by
  have hnone := not_live_iff.mp h
  have hout : ¬ InBounds s id off := fun ⟨g, hg, _⟩ => by cases hnone.symm.trans hg
  exact ⟨memRead_fails (len_le_of_not_inBounds hout), memWrite_fails (len_le_of_not_inBounds hout),
    free_not_live h, by rw [segLen, hnone], replaceZero_not_live hnone⟩

/-- Settles O21: the invariant gives the three conditions, `effectOf_condition` the two transitions, and
the invariant after the step that id 0 is still live. -/
theorem theLifeCycleOfAnId : Obligations.TheLifeCycleOfAnId := by
  refine ⟨fun s id hinv => condition_of_inv hinv id, fun s t id hinv h => ?_,
    fun s id off v h => memoryFault_of_not_live h off v,
    fun s t hinv h => ⟨hinv.zero_live, (inv_step hinv h).zero_live⟩⟩
  obtain ⟨-, rfl⟩ | ⟨g, hg, hlt, heffect⟩ := step_effectOf h
  · exact .inl ⟨rfl, Iff.rfl, Iff.rfl⟩
  · exact (effectOf_condition (inv_advance hinv) heffect id).imp_right
      fun hmoved => ⟨g, hg, hlt, hmoved⟩

end Sys2Proof.Proofs
end

section
/-! PROOFS. Ids freed and allocated again (20_memory.md R45, R46). -/

namespace Sys2Proof.Proofs

open Sys2Proof.Machine Sys2Proof.Claims

variable {s t : State} {ids : List Nat}

theorem freeAll_cons_some {id : Nat} (h : freeAll (id :: ids) s = some t) :
    ∃ u, free id s = .ok u ∧ freeAll ids u = some t := by
  rw [freeAll] at h
  split at h
  · exact ⟨_, ‹_›, h⟩
  · cases h

/-- The last id freed is on top of the pool. -/
theorem freeAll_ids (h : freeAll ids s = some t) :
    t.pool = ids.reverse ++ s.pool ∧ t.nextId = s.nextId := by
  induction ids generalizing s with
  | nil => cases h; exact ⟨rfl, rfl⟩
  | cons id ids ih =>
    obtain ⟨u, hu, ht⟩ := freeAll_cons_some h
    obtain ⟨hupool, hunext⟩ := free_ids hu
    obtain ⟨htpool, htnext⟩ := ih ht
    exact ⟨by simp [htpool, hupool], htnext.trans hunext⟩

/-- Allocations that succeed take the next fresh ids. -/
theorem allocAll_ids {sizes : List Nat} (h : allocAll sizes s = some (ids, t)) :
    ids = freshIds s sizes.length ∧ t.pool = s.pool.drop sizes.length ∧
      t.nextId = s.nextId + (sizes.length - s.pool.length) := by
  induction sizes generalizing s ids with
  | nil => cases h; simp [freshIds]
  | cons size sizes ih =>
    obtain ⟨id, u, rest, hu, ht, rfl⟩ := allocAll_cons_some h
    obtain rfl := alloc_eq_nextFresh hu
    obtain ⟨hupool, hunext⟩ := alloc_ids hu
    obtain ⟨rfl, htpool, htnext⟩ := ih ht
    refine ⟨(freshIds_succ hu).symm, by rw [htpool, hupool, List.drop_tail]; rfl, ?_⟩
    rw [htnext, hunext, hupool, List.length_tail, List.length_cons]
    omega

/-- Settles O26: `freeAll_ids` puts the freed ids, reversed, on top of the pool, and as many
allocations take exactly those. -/
theorem freedIdsComeBackInReverseOrder : Obligations.FreedIdsComeBackInReverseOrder := by
  intro s t u freed sizes got hfree hlength halloc
  obtain ⟨hpool, hnext⟩ := freeAll_ids hfree
  obtain ⟨rfl, hupool, hunext⟩ := allocAll_ids halloc
  rw [← List.length_reverse (as := freed)] at hlength
  have hnone : freed.reverse.length - t.pool.length = 0 := by
    rw [hpool, List.length_append]
    omega
  have hfresh : freshIds t freed.reverse.length = freed.reverse := by
    rw [freshIds, hnone, List.range'_zero, List.append_nil, hpool, List.take_left]
  rw [hlength, hnone] at hunext
  rw [hlength]
  exact ⟨hfresh, hunext.trans hnext, by rw [hupool, hlength, hpool, List.drop_left]⟩

end Sys2Proof.Proofs
end

section
/-! PROOFS. A word placed from outside where the machine fetches (notes/assumptions/3.md). -/

namespace Sys2Proof.Proofs

open Sys2Proof.Machine Sys2Proof.Claims

variable {s : State} {nbits w : Nat}

/-- The word a table word of at most 32 bits stands for. -/
def placedWord (nbits w : Nat) : Word := BitVec.ofNat 32 (w % 2 ^ min nbits 32)

theorem decodeTableWord_eq (h : nbits ≤ 32) :
    decodeTableWord nbits w = some (decode (placedWord nbits w)) := by
  rw [decodeTableWord, if_pos h, placedWord, Nat.min_eq_left h]

/-- Segment 0 as it was, or an empty one, made long enough to hold the index `pc`. -/
def longZero (s : State) : Segment :=
  let g := (s.segment 0).getD (Segment.zeros 0)
  { g with len := max g.len (s.pc.toNat + 1) }

theorem withFetchWord_segment (s : State) (nbits w id : Nat) :
    (s.withFetchWord nbits w).segment id =
      if id = 0 then some ((longZero s).store s.pc.toNat (placedWord nbits w)) else s.segment id :=
  segment_of_seg_put rfl id

theorem withFetchWord_segment_zero (s : State) (nbits w : Nat) :
    (s.withFetchWord nbits w).segment 0 =
      some ((longZero s).store s.pc.toNat (placedWord nbits w)) :=
  (withFetchWord_segment s nbits w 0).trans (if_pos rfl)

theorem fetch_withFetchWord (s : State) (nbits w : Nat) :
    fetch (s.withFetchWord nbits w) = .ok (placedWord nbits w) := by
  have hlt : s.pc.toNat < (longZero s).len := Nat.le_max_right _ _
  rw [fetch, State.withFetchWord_pc, memRead_some (withFetchWord_segment_zero s nbits w) hlt,
    Segment.wordAt_store, if_pos rfl]

theorem memRead_withFetchWord {off : Nat} (hne : off ≠ s.pc.toNat) (hin : InBounds s 0 off) :
    memRead 0 off (s.withFetchWord nbits w) = memRead 0 off s := by
  obtain ⟨g, hg, hlt⟩ := hin
  have hlong : longZero s = { g with len := max g.len (s.pc.toNat + 1) } := by
    rw [longZero, hg, Option.getD_some]
  have hlt' : off < (longZero s).len := hlong ▸ hlt.trans_le (Nat.le_max_left _ _)
  rw [memRead_some hg hlt, memRead_some (withFetchWord_segment_zero s nbits w) hlt',
    Segment.wordAt_store, if_neg hne, hlong]
  rfl

/-- Settles O32: the placed word is fetched (`fetch_withFetchWord`) in a running state, and placing it
binds segment 0 alone. -/
theorem aPlacedWordIsTheNextInstruction : Obligations.APlacedWordIsTheNextInstruction :=
  fun s nbits w h => ⟨_, decodeTableWord_eq h, step_fetched rfl (fetch_withFetchWord s nbits w),
    fun id hid => (withFetchWord_segment s nbits w id).trans (if_neg hid),
    fun _ => memRead_withFetchWord⟩

end Sys2Proof.Proofs
end
